-- ==== Sys2Proof/Word.lean ====
section
/-! DEFINITION. The machine's word types: registers are 32 bits, memory cells 8 bits, the unpacker's accumulator
64 bits (00_scope.md R10). Colours are tuples of 8-bit channels (R15). -/

namespace Sys2Proof

/-- A 32-bit register or command word (R10, R80). -/
abbrev Word := BitVec 32

/-- One byte of SRC or of RASTER, and one 8-bit colour channel (R10). -/
abbrev Byte := BitVec 8

/-- The bit-unpacker's 64-bit unsigned accumulator (R10). -/
abbrev Acc := BitVec 64

/-- The three colour channels of R15's `p.rgb`. -/
structure Rgb where
  r : Byte
  g : Byte
  b : Byte
deriving DecidableEq, Repr

/-- An RGBA colour, R15: `(p.rgb, a)`. -/
structure Color where
  rgb : Rgb
  a : Byte
deriving DecidableEq, Repr

end Sys2Proof
end

