-- ==== Sys2Proof/Config.lean ====
section
/-! DEFINITION. What an implementation fixes (the parameters of 00_scope.md R7, R8, R9) and the free values
(10_state.md R51, 20_memory.md R71, 70_reset_and_hazards.md R232). -/

namespace Sys2Proof

/-- The three OPEN parameters. The spec has the model take them as an argument, so they stand in `State` as a field
that no step changes, and a statement over all states is a statement over all parameter values. -/
structure Params where
  /-- `P_SRC_BYTES`, R7: the capacity of SRC in bytes, 16 to 2^24. -/
  srcBytes : Nat
  /-- `P_RASTER_PIXELS`, R8: the capacity of RASTER in 32-bit pixels, 1 to 2^26. -/
  rasterPixels : Nat
  /-- `P_RGB_FLAG_REQUIRED`, R9. -/
  rgbFlagRequired : Bool
deriving DecidableEq, Repr

/-- DESIGN CHOICE (log 1): the parameters of `State.reset`. The capacities are those of 95_test_vectors.md's
conventions; the flag's default is R9's. No statement rests on these values. -/
def Config.defaultParams : Params := ⟨4096, 1024, false⟩

/-- Free value, R232 (log 2): the byte at SRC offset `i` after the reset numbered `epoch`, until the host writes it. -/
opaque Config.srcDrawn : (epoch i : Nat) → Byte

/-- Free value, R232 (log 2): byte `i` of RASTER (pixel `i / 4`, byte lane `i % 4`) after the reset numbered `epoch`,
until the engine writes it. -/
opaque Config.rasterDrawn : (epoch i : Nat) → Byte

/-- Free value, R51 and R71 (log 3): what the `n`-th read whose value the spec leaves open returns. -/
opaque Config.busyRead : (n : Nat) → Word

end Sys2Proof
end

