-- ==== Sys2Proof/Syntax.lean ====
section
/-! DEFINITION. The command set of 30_encoding.md R81: one constructor for each row of spec/opcode_table.json.
A command word has no operand field (R80); a command reads its operands from the input registers (R84). -/

namespace Sys2Proof

/-- `DXTC-CORE command set, version 1` (R2, R81). -/
inductive Instr where
  | nop
  | probe
  | decode
  | decodeDxt1
  | decodeDxt3
  | decodeDxt5
  | blockDxt1
  | blockDxt3
  | blockDxt5
  | colorPalette
  | alphaPalette
  | unpackRaw
  | unpackPixel
  | unpackSurface
deriving DecidableEq, Repr

end Sys2Proof
end

