-- ==== Sys2Proof/WellFormed.lean ====
section
/-! DEFINITION. Well-formedness: of command words (30_encoding.md R80, R81), of instructions and of the parameters
(00_scope.md R7, R8). -/

namespace Sys2Proof

/-- R80: bits 31:8, `RSV`, must be 0. -/
def rsvOk (w : Word) : Bool := w.extractLsb' 8 24 == 0#24

/-- The `OP` column of R81's table. -/
def legalOps : List Byte :=
  [0x00, 0x01, 0x02, 0x10, 0x11, 0x12, 0x18, 0x19, 0x1A, 0x20, 0x21, 0x30, 0x31, 0x32]

/-- R80: `OP` is bits 7:0; R81: it must be in the table. -/
def opOk (w : Word) : Bool := legalOps.contains (w.extractLsb' 0 8)

/-- R81: a word is legal if and only if `RSV = 0` and `OP` is in the table. -/
def legalWord (w : Word) : Bool := rsvOk w && opOk w

/-- Every instruction is well formed: R80 gives the command word no operand field, so there is nothing to check. -/
def Instr.wf (_ : Instr) : Bool := true

/-- R7: `16 ≤ P_SRC_BYTES ≤ 2^24`; R8: `1 ≤ P_RASTER_PIXELS ≤ 2^26`. -/
def Params.wf (p : Params) : Bool :=
  (16 ≤ p.srcBytes && p.srcBytes ≤ 2 ^ 24) && (1 ≤ p.rasterPixels && p.rasterPixels ≤ 2 ^ 26)

end Sys2Proof
end

