-- ==== Sys2Proof/Decode.lean ====
section
/-! DEFINITION. The command decoder (30_encoding.md R80, R81, R82), total on every word, and the encoder. -/

namespace Sys2Proof

/-- One row of the command map as a match/mask pair (R81). -/
structure OpRow where
  instr : Instr
  mask : Word
  value : Word
deriving DecidableEq, Repr

/-- spec/opcode_table.json, row by row: `mask` 0xFFFFFFFF and `match` the whole word. -/
def opRows : List OpRow :=
  [⟨.nop, 0xFFFFFFFF, 0x00000000⟩, ⟨.probe, 0xFFFFFFFF, 0x00000001⟩, ⟨.decode, 0xFFFFFFFF, 0x00000002⟩,
   ⟨.decodeDxt1, 0xFFFFFFFF, 0x00000010⟩, ⟨.decodeDxt3, 0xFFFFFFFF, 0x00000011⟩, ⟨.decodeDxt5, 0xFFFFFFFF, 0x00000012⟩,
   ⟨.blockDxt1, 0xFFFFFFFF, 0x00000018⟩, ⟨.blockDxt3, 0xFFFFFFFF, 0x00000019⟩, ⟨.blockDxt5, 0xFFFFFFFF, 0x0000001A⟩,
   ⟨.colorPalette, 0xFFFFFFFF, 0x00000020⟩, ⟨.alphaPalette, 0xFFFFFFFF, 0x00000021⟩,
   ⟨.unpackRaw, 0xFFFFFFFF, 0x00000030⟩, ⟨.unpackPixel, 0xFFFFFFFF, 0x00000031⟩, ⟨.unpackSurface, 0xFFFFFFFF, 0x00000032⟩]

def OpRow.hits (r : OpRow) (w : Word) : Bool := w &&& r.mask == r.value

/-- R81, R82: the command a word is, or `none` for an illegal word (which the engine answers with `ILLEGAL_OP`, R203). -/
def decode (w : Word) : Option Instr := (opRows.find? (·.hits w)).map (·.instr)

/-- The `OP` code of R81's table. -/
def Instr.op : Instr → Byte
  | .nop => 0x00
  | .probe => 0x01
  | .decode => 0x02
  | .decodeDxt1 => 0x10
  | .decodeDxt3 => 0x11
  | .decodeDxt5 => 0x12
  | .blockDxt1 => 0x18
  | .blockDxt3 => 0x19
  | .blockDxt5 => 0x1A
  | .colorPalette => 0x20
  | .alphaPalette => 0x21
  | .unpackRaw => 0x30
  | .unpackPixel => 0x31
  | .unpackSurface => 0x32

/-- R80: `RSV` (bits 31:8) is 0 and `OP` (bits 7:0) is the command code. -/
def encode (i : Instr) : Word := 0#24 ++ i.op

/-- A word from its four bytes, byte 0 least significant (20_memory.md R66). -/
def wordOfBytes (b0 b1 b2 b3 : Byte) : Word := b3 ++ b2 ++ b1 ++ b0

/-- R80: a decoder always consumes exactly one word; fewer than four bytes are no word. -/
def decodeBytes : List Byte → Option (Instr × List Byte)
  | b0 :: b1 :: b2 :: b3 :: rest => (decode (wordOfBytes b0 b1 b2 b3)).map fun i => (i, rest)
  | _ => none

/-- The instruction of a table row whose `nbits` low bits are `w`; bits above `nbits` are 0. Every command is one
32-bit word (R80). -/
def decodeTableWord (nbits w : Nat) : Option Instr := decode (BitVec.ofNat 32 (w % 2 ^ nbits))

end Sys2Proof
end

