-- ==== Sys2Proof/Machine/State.lean ====
section
/-! DEFINITION. The machine's state as plain data (10_state.md R20 to R53), the reasons a step can stop, and the
state after reset (70_reset_and_hazards.md R230). -/

namespace Sys2Proof.Machine

/-- `ERRCODE`, 60_exceptions.md R201. Codes 10 to 15 are never raised and have no constructor. -/
inductive ErrCode where
  | none
  | illegalOp
  | unrecognizedFormat
  | unsupportedFourcc
  | dataRead
  | bufferTooShort
  | badWidth
  | outOfRange
  | tooLarge
  | badLength
deriving DecidableEq, Repr

/-- `STATUS`, R26: its five fields. The reserved bits 7:4 and 31:12 read 0, so they hold nothing. -/
structure Status where
  busy : Bool
  done : Bool
  err : Bool
  wign : Bool
  errcode : ErrCode
deriving DecidableEq, Repr

/-- `CTRL`, R24: its two fields. Bits 31:2 read 0 and ignore writes, so they hold nothing. -/
structure Ctrl where
  irqEn : Bool
  forceDxt3 : Bool
deriving DecidableEq, Repr

/-- `CLASS`, R36 and R100. Codes 9 to 15 are never written and have no constructor. -/
inductive PixClass where
  | none
  | rgba8
  | rgba16
  | ycbcr24
  | gray8
  | gray16
  | alpha8
  | alpha16
  | compressed
deriving DecidableEq, Repr

/-- `ROUTE`, R37 and R101. Codes 5 to 7 are never written and have no constructor. -/
inductive Route where
  | none
  | dxt1
  | dxt3
  | dxt5
  | uncompressed
deriving DecidableEq, Repr

/-- The registers a command reads and only the host writes (class `RW` of R22): R24, R28 to R35. -/
structure Inputs where
  ctrl : Ctrl
  width : Word
  height : Word
  pfFlags : Word
  rgbBitCount : Word
  rMask : Word
  gMask : Word
  bMask : Word
  aMask : Word
  fourcc : Word
  srcLen : Word
  arg0 : Word
  arg1 : Word
deriving DecidableEq, Repr

/-- The registers only the engine writes (class `RO` of R22): R36 to R44. These are also the registers whose value a
host read while busy does not show (R51). -/
structure Results where
  cls : PixClass
  route : Route
  diag0 : Word
  diag1 : Word
  blocksDone : Word
  resultRgba : Word
  accLo : Word
  accHi : Word
  pal : Vector Word 4
  apalLo : Word
  apalHi : Word
  texel : Vector Word 16
deriving DecidableEq, Repr

/-- The two agents of R20. -/
inductive Agent where
  | host
  | engine
deriving DecidableEq, Repr

/-- What the host and the platform may do to the block in one host step: the bus transactions of R103 (and, as
`otherWidth`, an access of a width R67 does not list), the pseudo-instruction `wait` of R104, and the reset input of
R230. The other pseudo-instructions of R104 are sequences of these. -/
inductive HostOp where
  /-- `wr`: (W32, address, data). -/
  | wr (addr data : Word)
  /-- `wrb`: (W8, address, byte). -/
  | wrb (addr : Word) (data : Byte)
  /-- `rd`: (R32, address). -/
  | rd (addr : Word)
  /-- `rdb`: (R8, address). -/
  | rdb (addr : Word)
  /-- A read or write whose width in bits is neither 8 nor 32. -/
  | otherWidth (bits : Nat) (addr : Word)
  /-- `wait`: read `STATUS` again and again until bit 1 of the value read is 1. -/
  | wait
  /-- The platform asserts the reset input. -/
  | reset
deriving DecidableEq, Repr

/-- One completed host read: the address and the value returned (an 8-bit read's byte, zero-extended). -/
structure BusRead where
  addr : Word
  data : Word
deriving DecidableEq, Repr

/-- The MODEL's own part of the state (log 4, 5): what is outside the block, as plain data. No command reads or
changes it. -/
structure Env where
  /-- The number of the reset that drew the present SRC and RASTER contents (R232). -/
  epoch : Nat
  /-- How many free read values have been drawn (R51, R71). -/
  draws : Nat
  /-- The host's remaining operations, in program order (R72 (a)). -/
  script : List HostOp
  /-- Which agent moves, at each step in which both can (R234). -/
  schedule : List Agent
  /-- What the host has read so far, the latest first. -/
  reads : List BusRead
deriving DecidableEq, Repr

/-- Bytes by offset, SRC's or RASTER's (RASTER pixel word `p` is bytes `4*p .. 4*p+3`, R63): the bytes written since
the last reset, offsets strictly rising. An offset that is not listed has not been written since then; what a read of
it returns is `State.srcByte` and `State.rasterByte`. -/
abbrev Memory := List Host.Cell

/-- The canonical form: offsets strictly rising. An unlisted offset holds no written byte, so no entry can equal it. -/
abbrev Memory.wf (m : Memory) : Prop := m.Pairwise (fun x y => x.1 < y.1)

/-- The block's state, R21, with the parameters (`params`) and the model's own `env` beside it. -/
structure State where
  /-- R7, R8, R9: no step changes it. `CAP_SRC_BYTES` and `CAP_RASTER_PIXELS` (R45) read it. -/
  params : Params
  /-- The `RW` registers. -/
  inp : Inputs
  /-- The `RO` registers. -/
  out : Results
  /-- `CMD`, R25: the word of the last started command. -/
  cmd : Word
  /-- `STATUS`, R26. -/
  status : Status
  /-- R47: nothing, or the command word being executed. -/
  pending : Option Word
  /-- `SRC[0 .. P_SRC_BYTES-1]`, R62. -/
  src : Memory
  /-- `RASTER[0 .. P_RASTER_PIXELS-1]`, R63, by byte. -/
  raster : Memory
  /-- The host, the schedule and the counters of free values. -/
  env : Env
deriving DecidableEq, Repr

/-- Why the run stops. The block gives these host accesses no response: the spec's model refuses them and the host is
stuck (20_memory.md R64, R67; log 8). Raised by the host's bus accesses (Machine/HostBus.lean) alone, never by a command.
Safe: no claim about a later state can be proved from a run that stops. -/
inductive Fault where
  /-- R64: the address, or a byte of the 32-bit access, lies in no window. Safe. -/
  | unmapped (addr : Word)
  /-- R67: a 32-bit access whose address is not a multiple of 4. Safe. -/
  | misaligned (addr : Word)
  /-- R67: a width the window does not admit. Safe. -/
  | unsupportedWidth (bits : Nat) (addr : Word)
deriving DecidableEq, Repr

/-- Refusals. -/
inductive Refusal where
  /-- An instruction that has no meaning yet. Raised by no arm: every command has its meaning. Safe. -/
  | notModelled (mnemonic : String)
deriving DecidableEq, Repr

/-- The outcome of a step of this machine. -/
abbrev Out := Host.Outcome State Fault Refusal

/-- The `RW` registers after reset: 0x00000000 each (R22, R230). -/
def Inputs.reset : Inputs where
  ctrl := ⟨false, false⟩
  width := 0
  height := 0
  pfFlags := 0
  rgbBitCount := 0
  rMask := 0
  gMask := 0
  bMask := 0
  aMask := 0
  fourcc := 0
  srcLen := 0
  arg0 := 0
  arg1 := 0

/-- The `RO` registers after reset: 0x00000000 each (R22, R230). -/
def Results.reset : Results where
  cls := .none
  route := .none
  diag0 := 0
  diag1 := 0
  blocksDone := 0
  resultRgba := 0
  accLo := 0
  accHi := 0
  pal := #v[0, 0, 0, 0]
  apalLo := 0
  apalHi := 0
  texel := #v[0, 0, 0, 0, 0, 0, 0, 0, 0, 0, 0, 0, 0, 0, 0, 0]

/-- `STATUS` after reset: 0x00000000 (R26, R230). -/
def Status.reset : Status := ⟨false, false, false, false, .none⟩

/-- `Reset()` of R230 for a block with parameters `p`: every register at its reset value, `pending` empty, and no
byte of SRC or RASTER known (R232: the contents are the free values of `env.epoch`). -/
def State.resetWith (p : Params) (e : Env) : State where
  params := p
  inp := .reset
  out := .reset
  cmd := 0
  status := .reset
  pending := none
  src := []
  raster := []
  env := e

/-- DESIGN CHOICE (log 4, 5): the model's own fields after power-on: the host has nothing to do, nothing is drawn. -/
def Env.powerOn : Env := ⟨0, 0, [], [], []⟩

/-- The machine right after power-on reset (R230), with the parameters of log 1. -/
def State.reset : State := .resetWith Config.defaultParams .powerOn

end Sys2Proof.Machine
end

