-- ==== Sys2Proof/Machine/Flags.lean ====
section
/-! DEFINITION. The condition flags and the coded fields: `STATUS` (10_state.md R26, R27), `CTRL` (R24), `IRQ` (R49),
the `PF_FLAGS` bits (30_encoding.md R98) and the numeric codes of ERRCODE, CLASS and ROUTE. -/

namespace Sys2Proof.Machine

/-- The numeric error codes of R201. -/
def ErrCode.code : ErrCode → BitVec 4
  | .none => 0
  | .illegalOp => 1
  | .unrecognizedFormat => 2
  | .unsupportedFourcc => 3
  | .dataRead => 4
  | .bufferTooShort => 5
  | .badWidth => 6
  | .outOfRange => 7
  | .tooLarge => 8
  | .badLength => 9

/-- The `CLASS` codes of R100. -/
def PixClass.code : PixClass → Word
  | .none => 0
  | .rgba8 => 1
  | .rgba16 => 2
  | .ycbcr24 => 3
  | .gray8 => 4
  | .gray16 => 5
  | .alpha8 => 6
  | .alpha16 => 7
  | .compressed => 8

/-- The `ROUTE` codes of R101. -/
def Route.code : Route → Word
  | .none => 0
  | .dxt1 => 1
  | .dxt3 => 2
  | .dxt5 => 3
  | .uncompressed => 4

/-- `STATUS` as a read returns it (R26): BUSY bit 0, DONE 1, ERR 2, WIGN 3, ERRCODE 11:8, every other bit 0. -/
def Status.word (st : Status) : Word :=
  0#20 ++ st.errcode.code ++ 0#4 ++ BitVec.ofBool st.wign ++ BitVec.ofBool st.err ++ BitVec.ofBool st.done
    ++ BitVec.ofBool st.busy

/-- R27: a host write of `v` clears DONE, ERR and WIGN where its bits 1, 2 and 3 are 1, and nothing else. -/
def Status.writeOneToClear (v : Word) (st : Status) : Status :=
  { st with
    done := st.done && !v.getLsbD 1
    err := st.err && !v.getLsbD 2
    wign := st.wign && !v.getLsbD 3 }

/-- R204: what a command start does to `STATUS`; WIGN is not changed. -/
def Status.start (st : Status) : Status := { st with busy := true, done := false, err := false, errcode := .none }

/-- R205: what a normal end does to `STATUS`. -/
def Status.complete (st : Status) : Status := { st with busy := false, done := true }

/-- R206: what an error end does to `STATUS`. -/
def Status.error (e : ErrCode) (st : Status) : Status :=
  { st with busy := false, done := true, err := true, errcode := e }

/-- R46, R75: a host write is ignored because BUSY is 1. -/
def Status.setWign (st : Status) : Status := { st with wign := true }

/-- `CTRL` as a read returns it (R24): IRQ_EN bit 0, FORCE_DXT3 bit 1, bits 31:2 are 0. -/
def Ctrl.word (c : Ctrl) : Word := 0#30 ++ BitVec.ofBool c.forceDxt3 ++ BitVec.ofBool c.irqEn

/-- What a host write of `v` stores in `CTRL` (R24): bits 31:2 are dropped. -/
def Ctrl.ofWord (v : Word) : Ctrl := ⟨v.getLsbD 0, v.getLsbD 1⟩

/-- The interrupt output, R49 and R211: a function of the registers, no state of its own. -/
def State.irq (s : State) : Bool := s.inp.ctrl.irqEn && s.status.done

/-- Is the flag with bit value `bit` set in `PF_FLAGS` word `flags` (R98)? -/
def flagSet (flags bit : Word) : Bool := flags &&& bit != 0

/-- The bit values of R98 that a command reads (log 13). -/
def pfAlpha : Word := 0x00000002
def pfFourcc : Word := 0x00000004
def pfRgb : Word := 0x00000040
def pfYuv : Word := 0x00000200
def pfLuminance : Word := 0x00020000

end Sys2Proof.Machine
end

