-- ==== Sys2Proof/Machine/Ops.lean ====
section
/-! DEFINITION. The named operations over memory and registers (00_scope.md R14), and how a command starts and ends
(60_exceptions.md R204, R205, R206) and the block is reset (70_reset_and_hazards.md R230, R231, R232). -/

namespace Sys2Proof.Machine

/-- The byte listed at offset `a`, if any. -/
def Memory.get (m : Memory) (a : Nat) : Option Byte :=
  match m with
  | [] => none
  | (k, b) :: t => if a = k then some b else Memory.get t a

/-- Write one byte, keeping the offsets strictly rising. -/
def Memory.put (m : Memory) (a : Nat) (b : Byte) : Memory :=
  match m with
  | [] => [(a, b)]
  | (k, c) :: t => if a < k then (a, b) :: (k, c) :: t else if a = k then (a, b) :: t else (k, c) :: Memory.put t a b

/-- Write 0 to every offset below `n`. -/
def Memory.zeroBelow (m : Memory) (n : Nat) : Memory :=
  (List.range n).map (fun a => (a, 0#8)) ++ m.filter (fun c => n ≤ c.1)

/-- Byte lane `k` of a word: bits `8k+7 : 8k` (R66 (b)). -/
def byteLane (v : Word) (k : Nat) : Byte := v.extractLsb' (8 * k) 8

/-- Write a 32-bit word at byte offset `a`, lane `k` at `a + k` (R66). -/
def Memory.putWord (m : Memory) (a : Nat) (v : Word) : Memory :=
  (((m.put a (byteLane v 0)).put (a + 1) (byteLane v 1)).put (a + 2) (byteLane v 2)).put (a + 3) (byteLane v 3)

namespace State

/-- `SRC[i]`: the byte the host wrote last, or R232's drawn value where it has written none since reset. -/
def srcByte (s : State) (i : Nat) : Byte := (s.src.get i).getD (Config.srcDrawn s.env.epoch i)

/-- `SrcRead(off, n)` of R14: `n` bytes little-endian. -/
def srcRead (s : State) (off : Nat) : Nat → Nat
  | 0 => 0
  | n + 1 => (s.srcByte off).toNat + 256 * s.srcRead (off + 1) n

/-- Byte `i` of RASTER: the byte the engine wrote last, or R232's drawn value. -/
def rasterByte (s : State) (i : Nat) : Byte := (s.raster.get i).getD (Config.rasterDrawn s.env.epoch i)

/-- `RASTER[p]`: bytes `4*p .. 4*p+3`, the lowest offset least significant (R63, R66). -/
def rasterWord (s : State) (p : Nat) : Word :=
  s.rasterByte (4 * p + 3) ++ s.rasterByte (4 * p + 2) ++ s.rasterByte (4 * p + 1) ++ s.rasterByte (4 * p)

/-- `RASTER[p] <- v`. -/
def setRasterWord (p : Nat) (v : Word) (s : State) : State := { s with raster := s.raster.putWord (4 * p) v }

/-- The image width and height as numbers. -/
def w (s : State) : Nat := s.inp.width.toNat
def h (s : State) : Nat := s.inp.height.toNat

/-- `RasterWrite(x, y, v)` of R14: nothing happens outside the image (43_dxt.md R184, R185). -/
def rasterWrite (x y : Nat) (v : Word) (s : State) : State :=
  if x < s.w ∧ y < s.h then s.setRasterWord (y * s.w + x) v else s

/-- `RasterClear()` of R14: `RASTER[p] <- 0` for every `p < WIDTH * HEIGHT`. -/
def rasterClear (s : State) : State := { s with raster := s.raster.zeroBelow (4 * (s.w * s.h)) }

/-- The host writes `SRC[i]` (R62). -/
def setSrcByte (i : Nat) (b : Byte) (s : State) : State := { s with src := s.src.put i b }

/-- The host writes `SRC[i .. i+3]`, lane `k` at `i + k` (R66 (b)). -/
def setSrcWord (i : Nat) (v : Word) (s : State) : State := { s with src := s.src.putWord i v }

/-- The engine's register writes `reg[NAME] <- v`. -/
def setCls (c : PixClass) (s : State) : State := { s with out := { s.out with cls := c } }
def setRoute (r : Route) (s : State) : State := { s with out := { s.out with route := r } }
def setBlocksDone (n : Nat) (s : State) : State := { s with out := { s.out with blocksDone := BitVec.ofNat 32 n } }
def setPal (p : Vector Word 4) (s : State) : State := { s with out := { s.out with pal := p } }
def setTexels (t : Vector Word 16) (s : State) : State := { s with out := { s.out with texel := t } }
def setApal (lo hi : Word) (s : State) : State := { s with out := { s.out with apalLo := lo, apalHi := hi } }
def setPixel (acc : Acc) (rgba : Word) (s : State) : State :=
  { s with out := { s.out with accLo := acc.extractLsb' 0 32, accHi := acc.extractLsb' 32 32, resultRgba := rgba } }

end State

/-- An error and its diagnostic words, before they are taken modulo 2^32 (R17, R202). -/
structure CmdError where
  code : ErrCode
  d0 : Nat
  d1 : Nat
deriving DecidableEq, Repr

namespace State

/-- `StartCommand(v)`, R204. -/
def startCommand (v : Word) (s : State) : State :=
  { s with
    cmd := v
    pending := some v
    status := s.status.start
    out := { s.out with diag0 := 0, diag1 := 0 } }

/-- `complete`, R205: the normal end of a command. -/
def complete (s : State) : State := { s with pending := none, status := s.status.complete }

/-- `raise E(d0, d1)`, R206: the error end of a command. The block has no handler to go to (R200): the machine goes on
from this state, idle. -/
def raise (e : CmdError) (s : State) : State :=
  { s with
    out := { s.out with diag0 := BitVec.ofNat 32 e.d0, diag1 := BitVec.ofNat 32 e.d1 }
    status := s.status.error e.code
    pending := none }

/-- R46, R75: a host write ignored because the block is busy sets WIGN and does nothing else. -/
def ignoreWrite (s : State) : State := { s with status := s.status.setWign }

/-- The reset input (R230, R231): every register at its reset value, a pending command abandoned, and the contents of
SRC and RASTER drawn anew (R232). The host's remaining operations and what it has read are outside the block. -/
def applyReset (s : State) : State := .resetWith s.params { s.env with epoch := s.env.epoch + 1 }

end State

/-- R208: the first error in a command's check order. -/
def firstError : List (Option CmdError) → Option CmdError
  | [] => none
  | some e :: _ => some e
  | none :: t => firstError t

/-- Every command runs all its checks before its data writes (R207): the first failing check raises and nothing else
of the command happens (R17); with none failing, the body runs and the command completes. -/
def endCommand (s : State) (checks : List (Option CmdError)) (body : State → State) : Out :=
  match firstError checks with
  | some e => .next (s.raise e)
  | none => .next (body s).complete

end Sys2Proof.Machine
end

