-- ==== Sys2Proof/Machine/Operands.lean ====
section
/-! DEFINITION. Operand assembly (30_encoding.md R84 to R86), the data formats (R90 to R97, R102), `pack`
(00_scope.md R15), and the checks a command makes on its operands (60_exceptions.md R202). -/

namespace Sys2Proof.Machine

/-- `ceil(a / b)` of R12. -/
def ceilDiv (a b : Nat) : Nat := (a + b - 1) / b

/-- `n` like things from a function of their index. -/
def tabulate {α : Type} (n : Nat) (f : Fin n → α) : Vector α n := ⟨(List.ofFn f).toArray, by simp⟩

/-- `pack(r, g, b, a)`, R15: R in the lowest byte, A in the highest. -/
def pack (c : Color) : Word := c.a ++ c.rgb.b ++ c.rgb.g ++ c.rgb.r

/-- COLOR_PALETTE's endpoints, R85. -/
def colorArg0 (s : State) : BitVec 16 := s.inp.arg0.extractLsb' 0 16
def colorArg1 (s : State) : BitVec 16 := s.inp.arg0.extractLsb' 16 16

/-- ALPHA_PALETTE's anchors, R86; bits 31:16 are ignored. -/
def alphaArg0 (s : State) : Byte := s.inp.arg0.extractLsb' 0 8
def alphaArg1 (s : State) : Byte := s.inp.arg0.extractLsb' 8 8

/-- Colour index of texel `t`, R94: `(indices >> (2*t)) & 3`. -/
def colorIndex (indices : Word) (t : Nat) : BitVec 2 := indices.extractLsb' (2 * t) 2

/-- DXT3 alpha nibble of texel `t`, R95: `(alphaBits >> (4*t)) & 0xF`. -/
def alphaNibble (alphaBits : BitVec 64) (t : Nat) : BitVec 4 := alphaBits.extractLsb' (4 * t) 4

/-- DXT5 alpha code of texel `t`, R96: `(alphaIndices >> (3*t)) & 7`. -/
def alphaCode (alphaIndices : BitVec 48) (t : Nat) : BitVec 3 := alphaIndices.extractLsb' (3 * t) 3

/-- A little-endian `k`-bit field of SRC read from `n` bytes (R91, R92, R93). -/
def srcField (s : State) (off n k : Nat) : BitVec k := BitVec.ofNat k (s.srcRead off n)

/-- R134: which `RGB_BIT_COUNT` values a surface or pixel command accepts. -/
def validBpp (bpp : Nat) : Bool := bpp % 8 == 0 && 8 ≤ bpp && bpp ≤ 64

/-- R102, R134: bytes per row and bytes per pixel. -/
def pitch (width bpp : Nat) : Nat := ceilDiv (width * bpp) 8
def stride (bpp : Nat) : Nat := bpp / 8

/-- R102: the SRC offset of pixel `(x, y)`. -/
def pixelOffset (width bpp x y : Nat) : Nat := y * pitch width bpp + x * stride bpp

/-- `BAD_LENGTH`, R202: `SRC_LEN > P_SRC_BYTES`. -/
def checkSrcLen (s : State) : Option CmdError :=
  if s.inp.srcLen.toNat > s.params.srcBytes then some ⟨.badLength, s.inp.srcLen.toNat, s.params.srcBytes⟩ else none

/-- `BUFFER_TOO_SHORT`, R202: a single read of `n` bytes at `off` with `off + n > SRC_LEN`, the exact sum. -/
def checkRead (s : State) (off n : Nat) : Option CmdError :=
  if off + n > s.inp.srcLen.toNat then some ⟨.bufferTooShort, off + n, s.inp.srcLen.toNat⟩ else none

/-- `BAD_WIDTH`, R202, for a width that is not accepted. -/
def checkWidth (width : Nat) (accepted : Bool) : Option CmdError :=
  if accepted then none else some ⟨.badWidth, width, 0⟩

/-- `OUT_OF_RANGE`, R202: a pixel outside the image. -/
def checkPixel (s : State) (x y : Nat) : Option CmdError :=
  if x ≥ s.w ∨ y ≥ s.h then some ⟨.outOfRange, x, y⟩ else none

/-- `TOO_LARGE`, R202: the exact product `WIDTH * HEIGHT` above `P_RASTER_PIXELS`. -/
def checkRaster (s : State) : Option CmdError :=
  if s.w * s.h > s.params.rasterPixels then some ⟨.tooLarge, s.w, s.h⟩ else none

/-- `DATA_READ`, R202: an uncompressed surface whose payload is shorter than `pitch * HEIGHT`. -/
def checkPayload (s : State) : Option CmdError :=
  if s.inp.srcLen.toNat < pitch s.w s.inp.rgbBitCount.toNat * s.h then
    some ⟨.dataRead, pitch s.w s.inp.rgbBitCount.toNat * s.h, s.inp.srcLen.toNat⟩
  else none

end Sys2Proof.Machine
end

