-- ==== Sys2Proof/Machine/Interp.lean ====
section
/-! DEFINITION. The colour and alpha interpolator: 42_interp.md R150 to R158, and COLOR_PALETTE, ALPHA_PALETTE. -/

namespace Sys2Proof.Machine

/-- `Expand565(c)`, R150: shifts only, no bit is replicated. -/
def expand565 (c : BitVec 16) : Rgb where
  r := BitVec.ofNat 8 (((c.toNat >>> 11) &&& 0x1F) <<< 3)
  g := BitVec.ofNat 8 (((c.toNat >>> 5) &&& 0x3F) <<< 2)
  b := BitVec.ofNat 8 ((c.toNat &&& 0x1F) <<< 3)

/-- `mix(u0, u1, w0, w1)`, R154: a weighted mean with truncating division. -/
def mix (u0 u1 w0 w1 : Nat) : Nat := (u0 * w0 + u1 * w1) / (w0 + w1)

/-- R154: a colour `mix` applies to each of r, g and b separately. A mean of two bytes fits in a byte. -/
def mixRgb (e0 e1 : Rgb) (w0 w1 : Nat) : Rgb where
  r := BitVec.ofNat 8 (mix e0.r.toNat e1.r.toNat w0 w1)
  g := BitVec.ofNat 8 (mix e0.g.toNat e1.g.toNat w0 w1)
  b := BitVec.ofNat 8 (mix e0.b.toNat e1.b.toNat w0 w1)

/-- `ColorPalette(c0, c1)`: the mode is chosen by the raw values (R151); R152 the 4-colour mode, R153 the 3-colour. -/
def colorPalette (c0 c1 : BitVec 16) : Vector Color 4 :=
  if c0.toNat > c1.toNat then
    #v[⟨expand565 c0, 255⟩, ⟨expand565 c1, 255⟩, ⟨mixRgb (expand565 c0) (expand565 c1) 2 1, 255⟩,
       ⟨mixRgb (expand565 c0) (expand565 c1) 1 2, 255⟩]
  else
    #v[⟨expand565 c0, 255⟩, ⟨expand565 c1, 255⟩, ⟨mixRgb (expand565 c0) (expand565 c1) 1 1, 255⟩, ⟨⟨0, 0, 0⟩, 0⟩]

/-- R156: code `k` (2 to 7) of the 8-value mode. -/
def alphaStep7 (a0 a1 : Byte) (k : Nat) : Byte := BitVec.ofNat 8 (((8 - k) * a0.toNat + (k - 1) * a1.toNat) / 7)

/-- R157: code `k` (2 to 5) of the 6-value mode. -/
def alphaStep5 (a0 a1 : Byte) (k : Nat) : Byte := BitVec.ofNat 8 (((6 - k) * a0.toNat + (k - 1) * a1.toNat) / 5)

/-- `AlphaPalette(a0, a1)`, R155: R156 when `a0 > a1`, R157 otherwise. -/
def alphaPalette (a0 a1 : Byte) : Vector Byte 8 :=
  if a0.toNat > a1.toNat then
    #v[a0, a1, alphaStep7 a0 a1 2, alphaStep7 a0 a1 3, alphaStep7 a0 a1 4, alphaStep7 a0 a1 5, alphaStep7 a0 a1 6,
       alphaStep7 a0 a1 7]
  else
    #v[a0, a1, alphaStep5 a0 a1 2, alphaStep5 a0 a1 3, alphaStep5 a0 a1 4, alphaStep5 a0 a1 5, 0, 255]

/-- R158: a 4-bit nibble becomes the 8-bit alpha `n * 17`. -/
def expandNibble (n : BitVec 4) : Byte := BitVec.ofNat 8 (17 * n.toNat)

/-- R42: `PALk` holds `pack` of palette entry `k`. -/
def palWords (p : Vector Color 4) : Vector Word 4 := tabulate 4 fun k => pack p[k]

/-- R43: `APAL_LO` and `APAL_HI`, the lower code in the lower byte. -/
def apalLoWord (ap : Vector Byte 8) : Word := ap[3] ++ ap[2] ++ ap[1] ++ ap[0]
def apalHiWord (ap : Vector Byte 8) : Word := ap[7] ++ ap[6] ++ ap[5] ++ ap[4]

/-- Write the alpha palette to `APAL_LO` and `APAL_HI` (R43). -/
def State.storeApal (ap : Vector Byte 8) (s : State) : State := s.setApal (apalLoWord ap) (apalHiWord ap)

/-- COLOR_PALETTE, R159. -/
def execColorPalette (s : State) : Out :=
  endCommand s [] (State.setPal (palWords (colorPalette (colorArg0 s) (colorArg1 s))))

/-- ALPHA_PALETTE, R160. -/
def execAlphaPalette (s : State) : Out :=
  endCommand s [] (State.storeApal (alphaPalette (alphaArg0 s) (alphaArg1 s)))

end Sys2Proof.Machine
end

