-- ==== Sys2Proof/Machine/Dxt.lean ====
section
/-! DEFINITION. The block decompressor: 43_dxt.md R170 to R186, with BLOCK_DXT1, BLOCK_DXT3, BLOCK_DXT5, DECODE_DXT1,
DECODE_DXT3 and DECODE_DXT5. -/

namespace Sys2Proof.Machine

/-- The three block variants (00_scope.md R19). -/
inductive Variant where
  | dxt1
  | dxt3
  | dxt5
deriving DecidableEq, Repr

/-- `bs`, R178: bytes per block. -/
def Variant.blockSize : Variant → Nat
  | .dxt1 => 8
  | .dxt3 => 16
  | .dxt5 => 16

/-- The `ROUTE` code of a variant (R101). -/
def Variant.route : Variant → Route
  | .dxt1 => .dxt1
  | .dxt3 => .dxt3
  | .dxt5 => .dxt5

/-- Palette entry of a 2-bit index. -/
def palEntry (p : Vector Color 4) (i : BitVec 2) : Color := p[i.toNat]'i.isLt

/-- Alpha palette entry of a 3-bit code. -/
def apalEntry (ap : Vector Byte 8) (k : BitVec 3) : Byte := ap[k.toNat]'k.isLt

/-- The palette of the block whose two endpoints start at SRC offset `off` (R91, R92, R93). -/
def blockPalette (s : State) (off : Nat) : Vector Color 4 := colorPalette (srcField s off 2 16) (srcField s (off + 2) 2 16)

/-- `DecodeBlockDXT1(off)`, R170: the texels and the palette. -/
def decodeBlockDxt1 (s : State) (off : Nat) : Vector Color 16 × Vector Color 4 :=
  let p := blockPalette s off
  let idx : Word := srcField s (off + 4) 4 32
  (tabulate 16 fun t => palEntry p (colorIndex idx t), p)

/-- `DecodeBlockDXT3(off)`, R171: the texels and the palette; the palette entry's own alpha is discarded (R174). -/
def decodeBlockDxt3 (s : State) (off : Nat) : Vector Color 16 × Vector Color 4 :=
  let abits : BitVec 64 := srcField s off 8 64
  let p := blockPalette s (off + 8)
  let idx : Word := srcField s (off + 12) 4 32
  (tabulate 16 fun t => ⟨(palEntry p (colorIndex idx t)).rgb, expandNibble (alphaNibble abits t)⟩, p)

/-- The alpha palette of the DXT5 block at `off` (R93, R155). -/
def blockAlphaPalette (s : State) (off : Nat) : Vector Byte 8 := alphaPalette (srcField s off 1 8) (srcField s (off + 1) 1 8)

/-- `DecodeBlockDXT5(off)`, R172: the texels, the palette and the alpha palette. -/
def decodeBlockDxt5 (s : State) (off : Nat) : Vector Color 16 × Vector Color 4 × Vector Byte 8 :=
  let ap := blockAlphaPalette s off
  let aidx : BitVec 48 := srcField s (off + 2) 6 48
  let p := blockPalette s (off + 8)
  let idx : Word := srcField s (off + 12) 4 32
  (tabulate 16 fun t => ⟨(palEntry p (colorIndex idx t)).rgb, apalEntry ap (alphaCode aidx t)⟩, p, ap)

/-- The texels of the block at `off`, first component of `DecodeBlock_v(off)` (R179). -/
def blockTexels (v : Variant) (s : State) (off : Nat) : Vector Color 16 :=
  match v with
  | .dxt1 => (decodeBlockDxt1 s off).1
  | .dxt3 => (decodeBlockDxt3 s off).1
  | .dxt5 => (decodeBlockDxt5 s off).1

/-- Write decoded texels and palette to `TEXEL0..15` and `PAL0..3` (R175, R176, R177). -/
def State.storeBlock (tex : Vector Color 16) (p : Vector Color 4) (s : State) : State :=
  (s.setTexels (tabulate 16 fun t => pack tex[t])).setPal (palWords p)

/-- The checks of a single-block command, in the order of R208. -/
def blockChecks (v : Variant) (s : State) : List (Option CmdError) :=
  [checkSrcLen s, checkRead s s.inp.arg0.toNat v.blockSize]

/-- BLOCK_DXT1, R175. -/
def execBlockDxt1 (s : State) : Out :=
  endCommand s (blockChecks .dxt1 s) fun t =>
    t.storeBlock (decodeBlockDxt1 s s.inp.arg0.toNat).1 (decodeBlockDxt1 s s.inp.arg0.toNat).2

/-- BLOCK_DXT3, R176. -/
def execBlockDxt3 (s : State) : Out :=
  endCommand s (blockChecks .dxt3 s) fun t =>
    t.storeBlock (decodeBlockDxt3 s s.inp.arg0.toNat).1 (decodeBlockDxt3 s s.inp.arg0.toNat).2

/-- BLOCK_DXT5, R177. -/
def execBlockDxt5 (s : State) : Out :=
  endCommand s (blockChecks .dxt5 s) fun t =>
    (t.storeBlock (decodeBlockDxt5 s s.inp.arg0.toNat).1 (decodeBlockDxt5 s s.inp.arg0.toNat).2.1).storeApal
      (decodeBlockDxt5 s s.inp.arg0.toNat).2.2

/-- `bw` and `bh`, R178: the block grid. -/
def gridWidth (s : State) : Nat := ceilDiv s.w 4
def gridHeight (s : State) : Nat := ceilDiv s.h 4

/-- The checks of `DecodeSurface(v)`, in R179's order. -/
def surfaceChecks (s : State) : List (Option CmdError) := [checkSrcLen s, checkRaster s]

/-- Write the 16 texels of the block at block column `bx` and block row `by'`, row by row (R179); `rasterWrite` clips
at the right edge (R184) and drops the rows below the image (R185). -/
def writeBlock (bx by' : Nat) (tex : Vector Color 16) (s : State) : State :=
  (List.finRange 16).foldl (fun u t => u.rasterWrite (4 * bx + t.val % 4) (4 * by' + t.val / 4) (pack tex[t])) s

/-- The block loop of `DecodeSurface(v)` (R179): `n` blocks are left and `k` is the next. It stops, without error, at
the first block that does not fit whole in the buffer (R180). -/
def decodeBlocks (v : Variant) : (n k : Nat) → State → State
  | 0, _, s => s
  | n + 1, k, s =>
    if k * v.blockSize + v.blockSize > s.inp.srcLen.toNat then s
    else
      decodeBlocks v n (k + 1)
        ((writeBlock (k % gridWidth s) (k / gridWidth s) (blockTexels v s (k * v.blockSize)) s).setBlocksDone (k + 1))

/-- `DecodeSurface(v)` after its checks (R179): clear, zero `BLOCKS_DONE`, decode the blocks in row-major order. -/
def decodeSurface (v : Variant) (s : State) : State :=
  decodeBlocks v (gridWidth s * gridHeight s) 0 (s.rasterClear.setBlocksDone 0)

/-- DECODE_DXT1, R181. -/
def execDecodeDxt1 (s : State) : Out := endCommand s (surfaceChecks s) (decodeSurface .dxt1)

/-- DECODE_DXT3, R182. -/
def execDecodeDxt3 (s : State) : Out := endCommand s (surfaceChecks s) (decodeSurface .dxt3)

/-- DECODE_DXT5, R183. -/
def execDecodeDxt5 (s : State) : Out := endCommand s (surfaceChecks s) (decodeSurface .dxt5)

end Sys2Proof.Machine
end

