-- ==== Sys2Proof/Machine/Unpack.lean ====
section
/-! DEFINITION. The bit-unpacker: 41_unpack.md R130 to R138, and UNPACK_RAW, UNPACK_PIXEL, UNPACK_SURFACE. -/

namespace Sys2Proof.Machine

/-- The accumulator `ReadBits(off, w)` returns (R130, R131) once its check `checkRead s off (ceil(w / 8))` has passed. -/
def readBits (s : State) (off w : Nat) : Acc := BitVec.ofNat 64 (s.srcRead off (ceilDiv w 8) &&& (2 ^ w - 1))

/-- `ctz32(m)` of R16: the number of trailing zero bits; 32 for 0. -/
def ctz32 (m : Word) : Nat := ((List.range 32).find? (fun k => m.getLsbD k)).getD 32

/-- `Extract(acc, mask)`, R132. -/
def extract (acc : Acc) (mask : Word) : Byte := ((acc &&& mask.setWidth 64) >>> ctz32 mask).setWidth 8

/-- `UnpackPixel(acc)`, R133: four independent channels; alpha is what `A_MASK` extracts. -/
def unpackColor (s : State) (acc : Acc) : Color :=
  ⟨⟨extract acc s.inp.rMask, extract acc s.inp.gMask, extract acc s.inp.bMask⟩, extract acc s.inp.aMask⟩

/-- Write the accumulator and the unpacked pixel to `ACC_LO`, `ACC_HI` and `RESULT_RGBA` (R135, R136). -/
def unpackTo (off width : Nat) (s : State) : State :=
  s.setPixel (readBits s off width) (pack (unpackColor s (readBits s off width)))

/-- UNPACK_RAW, R135. -/
def execUnpackRaw (s : State) : Out :=
  endCommand s
    [checkWidth s.inp.arg1.toNat (1 ≤ s.inp.arg1.toNat && s.inp.arg1.toNat ≤ 64), checkSrcLen s,
     checkRead s s.inp.arg0.toNat (ceilDiv s.inp.arg1.toNat 8)]
    (unpackTo s.inp.arg0.toNat s.inp.arg1.toNat)

/-- The SRC offset of the pixel UNPACK_PIXEL reads: column `ARG0`, row `ARG1` (R136). -/
def argPixelOffset (s : State) : Nat := pixelOffset s.w s.inp.rgbBitCount.toNat s.inp.arg0.toNat s.inp.arg1.toNat

/-- UNPACK_PIXEL, R136. -/
def execUnpackPixel (s : State) : Out :=
  endCommand s
    [checkWidth s.inp.rgbBitCount.toNat (validBpp s.inp.rgbBitCount.toNat),
     checkPixel s s.inp.arg0.toNat s.inp.arg1.toNat, checkSrcLen s,
     checkRead s (argPixelOffset s) (ceilDiv s.inp.rgbBitCount.toNat 8)]
    (unpackTo (argPixelOffset s) s.inp.rgbBitCount.toNat)

/-- The checks of `UnpackSurfaceBody()`, in R137's order. -/
def unpackChecks (s : State) : List (Option CmdError) :=
  [checkWidth s.inp.rgbBitCount.toNat (validBpp s.inp.rgbBitCount.toNat), checkSrcLen s, checkRaster s, checkPayload s]

/-- The raster word of pixel `(x, y)`: `pack(UnpackPixel(ReadBits(y * pitch + x * stride, bpp)))` (R137). -/
def surfacePixel (s : State) (x y : Nat) : Word :=
  pack (unpackColor s (readBits s (pixelOffset s.w s.inp.rgbBitCount.toNat x y) s.inp.rgbBitCount.toNat))

/-- The loops of `UnpackSurfaceBody()` (R137), over the `WIDTH * HEIGHT` pixels in row-major order: pixel number `p`
is column `p % WIDTH` of row `p / WIDTH`. `ReadBits` never raises here, because the payload check has passed (log 12). -/
def unpackSurface (s : State) : State :=
  (List.range (s.w * s.h)).foldl
    (fun t p => t.rasterWrite (p % s.w) (p / s.w) (surfacePixel s (p % s.w) (p / s.w))) s

/-- UNPACK_SURFACE, R137. -/
def execUnpackSurface (s : State) : Out := endCommand s (unpackChecks s) unpackSurface

end Sys2Proof.Machine
end

