-- ==== Sys2Proof/Machine/Control.lean ====
section
/-! DEFINITION. The classifier and the FourCC dispatch (40_control.md R111, R113), and NOP, PROBE, DECODE. -/

namespace Sys2Proof.Machine

/-- `classify(flags, bpp)`, R111: the branches in the source's fixed priority order. -/
def classify (rgbFlagRequired : Bool) (flags bpp : Word) : PixClass :=
  let rgbOk := !rgbFlagRequired || flagSet flags pfRgb
  if bpp == 32 && rgbOk then .rgba8
  else if bpp == 64 && rgbOk then .rgba16
  else if flagSet flags pfYuv && bpp == 24 then .ycbcr24
  else if flagSet flags pfLuminance && bpp == 8 then .gray8
  else if flagSet flags pfLuminance && bpp == 16 then .gray16
  else if flagSet flags pfAlpha && bpp == 8 then .alpha8
  else if flagSet flags pfAlpha && bpp == 16 then .alpha16
  else if flagSet flags pfFourcc then .compressed
  else .none

/-- `fourccRoute(fourcc, force)`, R113; `none` is its `NONE`. The tags are those of R99 (log 13). -/
def fourccRoute (fourcc : Word) (force : Bool) : Option Variant :=
  if force then some .dxt3
  else if fourcc == 0x31545844 then some .dxt1
  else if fourcc == 0x32545844 || fourcc == 0x33545844 then some .dxt3
  else if fourcc == 0x34545844 || fourcc == 0x35545844 then some .dxt5
  else none

/-- The class of the pixel format in the input registers. -/
def classOf (s : State) : PixClass := classify s.params.rgbFlagRequired s.inp.pfFlags s.inp.rgbBitCount

/-- `UNRECOGNIZED_FORMAT`, R202. Log 11: the diagnostic word is all of `PF_FLAGS`, against R83. -/
def checkClass (s : State) : Option CmdError :=
  if classOf s = .none then some ⟨.unrecognizedFormat, s.inp.pfFlags.toNat, s.inp.rgbBitCount.toNat⟩ else none

/-- NOP, R110. -/
def execNop (s : State) : Out := endCommand s [] id

/-- PROBE, R112: `CLASS` is written even when the command then raises. -/
def execProbe (s : State) : Out := endCommand (s.setCls (classOf s)) [checkClass s] id

/-- DECODE's compressed branch, R114, from the state in which `CLASS` and `ROUTE` (NONE) are written. -/
def decodeCompressed (s : State) : Out :=
  match fourccRoute s.inp.fourcc s.inp.ctrl.forceDxt3 with
  | none => .next (s.raise ⟨.unsupportedFourcc, s.inp.fourcc.toNat, 0⟩)
  | some v => endCommand (s.setRoute v.route) (surfaceChecks s) (decodeSurface v)

/-- DECODE's uncompressed branch, R114. -/
def decodeUncompressed (s : State) : Out := endCommand (s.setRoute .uncompressed) (unpackChecks s) unpackSurface

/-- The writes DECODE makes before its checks, R114. -/
def decodeStart (s : State) : State := ((s.setBlocksDone 0).setRoute .none).setCls (classOf s)

/-- DECODE, R114: classify, then the block codec if the FOURCC flag is set and the bit-unpacker otherwise. -/
def execDecode (s : State) : Out :=
  match checkClass s with
  | some e => .next ((decodeStart s).raise e)
  | none => if flagSet s.inp.pfFlags pfFourcc then decodeCompressed (decodeStart s) else decodeUncompressed (decodeStart s)

end Sys2Proof.Machine
end

