-- ==== Sys2Proof/Machine/Dispatch.lean ====
section
/-! DEFINITION. One arm per command: the body of a legal command (70_reset_and_hazards.md R234). -/

namespace Sys2Proof.Machine

def exec (i : Instr) (s : State) : Host.Outcome State Fault Refusal :=
  match i with
  -- 40_control.md
  | .nop => Sys2Proof.Machine.execNop s
  | .probe => Sys2Proof.Machine.execProbe s
  | .decode => Sys2Proof.Machine.execDecode s
  -- 43_dxt.md
  | .decodeDxt1 => Sys2Proof.Machine.execDecodeDxt1 s
  | .decodeDxt3 => Sys2Proof.Machine.execDecodeDxt3 s
  | .decodeDxt5 => Sys2Proof.Machine.execDecodeDxt5 s
  | .blockDxt1 => Sys2Proof.Machine.execBlockDxt1 s
  | .blockDxt3 => Sys2Proof.Machine.execBlockDxt3 s
  | .blockDxt5 => Sys2Proof.Machine.execBlockDxt5 s
  -- 42_interp.md
  | .colorPalette => Sys2Proof.Machine.execColorPalette s
  | .alphaPalette => Sys2Proof.Machine.execAlphaPalette s
  -- 41_unpack.md
  | .unpackRaw => Sys2Proof.Machine.execUnpackRaw s
  | .unpackPixel => Sys2Proof.Machine.execUnpackPixel s
  | .unpackSurface => Sys2Proof.Machine.execUnpackSurface s

end Sys2Proof.Machine
end

