-- ==== Sys2Proof/Machine/HostBus.lean ====
section
/-! DEFINITION. The host's bus accesses: the register map (10_state.md R22 to R51), the three windows (20_memory.md R60
to R64), byte order (R66), widths and alignment (R67), side effects (R68), accesses while busy (R46, R51, R71, R75). -/

namespace Sys2Proof.Machine

/-- The registers of R22's table. -/
inductive Reg where
  | id
  | ctrl
  | cmd
  | status
  | width
  | height
  | pfFlags
  | rgbBitCount
  | rMask
  | gMask
  | bMask
  | aMask
  | fourcc
  | srcLen
  | arg0
  | arg1
  | cls
  | route
  | diag0
  | diag1
  | blocksDone
  | resultRgba
  | accLo
  | accHi
  | pal (k : Fin 4)
  | apalLo
  | apalHi
  | capSrcBytes
  | capRasterPixels
  | texel (t : Fin 16)
deriving DecidableEq, Repr

/-- The access classes of R22. `STATUS` is read-only with write-1-to-clear fields. -/
inductive RegClass where
  | rw
  | ro
  | w1c
  | ws
  | const
deriving DecidableEq, Repr

/-- The offset column of R22's table. -/
def Reg.offset : Reg → Nat
  | .id => 0x000
  | .ctrl => 0x004
  | .cmd => 0x008
  | .status => 0x00C
  | .width => 0x010
  | .height => 0x014
  | .pfFlags => 0x018
  | .rgbBitCount => 0x01C
  | .rMask => 0x020
  | .gMask => 0x024
  | .bMask => 0x028
  | .aMask => 0x02C
  | .fourcc => 0x030
  | .srcLen => 0x034
  | .arg0 => 0x038
  | .arg1 => 0x03C
  | .cls => 0x040
  | .route => 0x044
  | .diag0 => 0x048
  | .diag1 => 0x04C
  | .blocksDone => 0x050
  | .resultRgba => 0x054
  | .accLo => 0x058
  | .accHi => 0x05C
  | .pal k => 0x060 + 4 * k.val
  | .apalLo => 0x070
  | .apalHi => 0x074
  | .capSrcBytes => 0x078
  | .capRasterPixels => 0x07C
  | .texel t => 0x080 + 4 * t.val

/-- The class column of R22's table. -/
def Reg.cl : Reg → RegClass
  | .id | .capSrcBytes | .capRasterPixels => .const
  | .cmd => .ws
  | .status => .w1c
  | .ctrl | .width | .height | .pfFlags | .rgbBitCount | .rMask | .gMask | .bMask | .aMask | .fourcc | .srcLen
  | .arg0 | .arg1 => .rw
  | .cls | .route | .diag0 | .diag1 | .blocksDone | .resultRgba | .accLo | .accHi | .pal _ | .apalLo | .apalHi
  | .texel _ => .ro

/-- Every register of R22's table. -/
def Reg.all : List Reg :=
  [.id, .ctrl, .cmd, .status, .width, .height, .pfFlags, .rgbBitCount, .rMask, .gMask, .bMask, .aMask, .fourcc, .srcLen,
   .arg0, .arg1, .cls, .route, .diag0, .diag1, .blocksDone, .resultRgba, .accLo, .accHi, .pal 0, .pal 1, .pal 2, .pal 3,
   .apalLo, .apalHi, .capSrcBytes, .capRasterPixels] ++ (List.finRange 16).map .texel

/-- The register at a byte offset of the register window; `none` for a reserved offset (R22). -/
def Reg.ofOffset (off : Nat) : Option Reg := Reg.all.find? (fun r => r.offset == off)

/-- `ID`, R23: the constant whose bytes spell "DXTC". -/
def idWord : Word := 0x43545844

/-- The value of a register (R23 to R45). -/
def State.readReg (s : State) : Reg → Word
  | .id => idWord
  | .ctrl => s.inp.ctrl.word
  | .cmd => s.cmd
  | .status => s.status.word
  | .width => s.inp.width
  | .height => s.inp.height
  | .pfFlags => s.inp.pfFlags
  | .rgbBitCount => s.inp.rgbBitCount
  | .rMask => s.inp.rMask
  | .gMask => s.inp.gMask
  | .bMask => s.inp.bMask
  | .aMask => s.inp.aMask
  | .fourcc => s.inp.fourcc
  | .srcLen => s.inp.srcLen
  | .arg0 => s.inp.arg0
  | .arg1 => s.inp.arg1
  | .cls => s.out.cls.code
  | .route => s.out.route.code
  | .diag0 => s.out.diag0
  | .diag1 => s.out.diag1
  | .blocksDone => s.out.blocksDone
  | .resultRgba => s.out.resultRgba
  | .accLo => s.out.accLo
  | .accHi => s.out.accHi
  | .pal k => s.out.pal[k]
  | .apalLo => s.out.apalLo
  | .apalHi => s.out.apalHi
  | .capSrcBytes => BitVec.ofNat 32 s.params.srcBytes
  | .capRasterPixels => BitVec.ofNat 32 s.params.rasterPixels
  | .texel t => s.out.texel[t]

/-- `reg[NAME] <- v` for an `RW` register; any other register is left alone. -/
def Inputs.write (i : Inputs) (r : Reg) (v : Word) : Inputs :=
  match r with
  | .ctrl => { i with ctrl := .ofWord v }
  | .width => { i with width := v }
  | .height => { i with height := v }
  | .pfFlags => { i with pfFlags := v }
  | .rgbBitCount => { i with rgbBitCount := v }
  | .rMask => { i with rMask := v }
  | .gMask => { i with gMask := v }
  | .bMask => { i with bMask := v }
  | .aMask => { i with aMask := v }
  | .fourcc => { i with fourcc := v }
  | .srcLen => { i with srcLen := v }
  | .arg0 => { i with arg0 := v }
  | .arg1 => { i with arg1 := v }
  | _ => i

/-- A host write of `v` to a register: R22's classes, R25 for `CMD`, R27 for `STATUS`, and R46 while busy. -/
def State.writeReg (r : Reg) (v : Word) (s : State) : State :=
  match r.cl with
  | .rw => if s.status.busy then s.ignoreWrite else { s with inp := s.inp.write r v }
  | .ws => if s.status.busy then s.ignoreWrite else s.startCommand v
  | .w1c => { s with status := s.status.writeOneToClear v }
  | .ro | .const => s

/-- What a host read returns: a stored value, or any value (R51, R71). -/
inductive ReadValue where
  | stored (v : Word)
  | anyValue
deriving DecidableEq, Repr

/-- A host read of a register offset: a reserved offset reads 0 (R22), an `RO` register any value while busy (R51). -/
def State.readOffset (s : State) (off : Nat) : ReadValue :=
  match Reg.ofOffset off with
  | none => .stored 0
  | some r => if s.status.busy && r.cl == .ro then .anyValue else .stored (s.readReg r)

/-- A host write to a register offset: a reserved offset ignores it (R22). -/
def State.writeOffset (off : Nat) (v : Word) (s : State) : State :=
  match Reg.ofOffset off with
  | none => s
  | some r => s.writeReg r v

/-- The windows of R61, R62 and R63, with the offset inside the window. -/
inductive Window where
  | reg (off : Nat)
  | src (i : Nat)
  | raster (i : Nat)
deriving DecidableEq, Repr

/-- The first host addresses of the SRC and RASTER windows (R62, R63). -/
def srcBase : Nat := 0x01000000
def rasterBase : Nat := 0x10000000

/-- The window an address lies in; `none` for an unmapped address (R64). -/
def windowOf (p : Params) (a : Nat) : Option Window :=
  if a < 0x1000 then some (.reg a)
  else if srcBase ≤ a ∧ a < srcBase + p.srcBytes then some (.src (a - srcBase))
  else if rasterBase ≤ a ∧ a < rasterBase + 4 * p.rasterPixels then some (.raster (a - rasterBase))
  else none

/-- Where a 32-bit access at `a` goes (R64, R67). Log 6: one whose last bytes lie beyond SRC is unmapped. -/
def window32 (p : Params) (a : Word) : Except Fault Window :=
  match windowOf p a.toNat with
  | none => .error (.unmapped a)
  | some win =>
    if a.toNat % 4 ≠ 0 then .error (.misaligned a)
    else
      match win with
      | .src i => if i + 4 ≤ p.srcBytes then .ok win else .error (.unmapped a)
      | .reg _ | .raster _ => .ok win

/-- Where an 8-bit access at `a` goes: the register window admits none (R67). -/
def window8 (p : Params) (a : Word) : Except Fault Window :=
  match windowOf p a.toNat with
  | none => .error (.unmapped a)
  | some (.reg _) => .error (.unsupportedWidth 8 a)
  | some win => .ok win

/-- What a 32-bit read of a window returns (R66, R71); SRC, which a command never changes, its bytes (log 10). -/
def State.read32 (s : State) : Window → ReadValue
  | .reg off => s.readOffset off
  | .src i => .stored (BitVec.ofNat 32 (s.srcRead i 4))
  | .raster i => if s.status.busy then .anyValue else .stored (s.rasterWord (i / 4))

/-- What an 8-bit read of a window returns (R66 (c), R71), zero-extended. -/
def State.read8 (s : State) : Window → ReadValue
  | .reg _ => .stored 0
  | .src i => .stored ((s.srcByte i).setWidth 32)
  | .raster i => if s.status.busy then .anyValue else .stored ((s.rasterByte i).setWidth 32)

/-- A 32-bit write to a window: SRC ignores it while busy (R75), RASTER always (R63; log 9). -/
def State.write32 (win : Window) (v : Word) (s : State) : State :=
  match win with
  | .reg off => s.writeOffset off v
  | .src i => if s.status.busy then s.ignoreWrite else s.setSrcWord i v
  | .raster _ => s

/-- An 8-bit write to a window (R63, R75). -/
def State.write8 (win : Window) (b : Byte) (s : State) : State :=
  match win with
  | .reg _ => s
  | .src i => if s.status.busy then s.ignoreWrite else s.setSrcByte i b
  | .raster _ => s

/-- A host read has no side effect on the block (R68): the model notes what the host has seen. -/
def State.observe (a data : Word) (s : State) : State := { s with env := { s.env with reads := ⟨a, data⟩ :: s.env.reads } }

/-- The host sees the value read; any value is the next free one, cut to `mask`'s bits (8 or 32). -/
def State.observeValue (a : Word) (mask : Word) (v : ReadValue) (s : State) : State :=
  match v with
  | .stored x => s.observe a x
  | .anyValue =>
    { s with env := { s.env with draws := s.env.draws + 1 } }.observe a (Config.busyRead s.env.draws &&& mask)

/-- The host performs `op` again at its next step (R104's `wait` loop). -/
def State.repeatOp (op : HostOp) (s : State) : State := { s with env := { s.env with script := op :: s.env.script } }

/-- One host step (R103, R104), or the platform's reset (R230). An access without a response stops the run (R64, R67). -/
def hostStep (op : HostOp) (s : State) : Out :=
  match op with
  | .wr a v =>
    match window32 s.params a with
    | .error e => .fault e
    | .ok win => .next (s.write32 win v)
  | .wrb a b =>
    match window8 s.params a with
    | .error e => .fault e
    | .ok win => .next (s.write8 win b)
  | .rd a =>
    match window32 s.params a with
    | .error e => .fault e
    | .ok win => .next (s.observeValue a 0xFFFFFFFF (s.read32 win))
  | .rdb a =>
    match window8 s.params a with
    | .error e => .fault e
    | .ok win => .next (s.observeValue a 0xFF (s.read8 win))
  | .otherWidth bits a => .fault (.unsupportedWidth bits a)
  | .wait =>
    if s.status.done then .next (s.observe (BitVec.ofNat 32 Reg.status.offset) s.status.word)
    else .next ((s.observe (BitVec.ofNat 32 Reg.status.offset) s.status.word).repeatOp .wait)
  | .reset => .next s.applyReset

/-- The operations the block answers (R64, R67): every other one stops the run. -/
def HostOp.admitted (p : Params) : HostOp → Bool
  | .wr a _ | .rd a => (window32 p a).toBool
  | .wrb a _ | .rdb a => (window8 p a).toBool
  | .otherWidth _ _ => false
  | .wait | .reset => true

end Sys2Proof.Machine
end

