-- ==== Sys2Proof/Machine/Engine.lean ====
section
/-! DEFINITION. The engine step (70_reset_and_hazards.md R234) and the turn of the two agents. -/

namespace Sys2Proof.Machine

/-- `EngineStep()`, R234, for the pending word `v`: an illegal word raises `ILLEGAL_OP(v, 0)` (R203), a legal one runs
its command's body. -/
def engineStep (v : Word) (s : State) : Out :=
  match decode v with
  | none => .next (s.raise ⟨.illegalOp, v.toNat, 0⟩)
  | some i => exec i s

/-- The host performs its next operation; with none left it does nothing. -/
def hostTurn (s : State) : Out :=
  match s.env.script with
  | [] => .next s
  | op :: rest => hostStep op { s with env := { s.env with script := rest } }

/-- Drop the choice of agent that this step uses up. -/
def State.popSchedule (s : State) : State := { s with env := { s.env with schedule := s.env.schedule.tail } }

/-- Who moves while a command is pending (R234): the agent the schedule names, and the engine where it names none or
the host has nothing to do. A schedule is finite, so the engine step comes after finitely many host steps. -/
def nextAgent (s : State) : Agent :=
  match s.env.schedule, s.env.script with
  | .host :: _, _ :: _ => .host
  | _, _ => .engine

/-- One step of the machine: with nothing pending only the host can move, with a command pending `nextAgent` does. -/
def turn (s : State) : Out :=
  match s.pending with
  | none => hostTurn s
  | some v =>
    match nextAgent s with
    | .host => hostTurn s.popSchedule
    | .engine => engineStep v s.popSchedule

/-- The command word `v` is started (R204) and the engine moves next. -/
def State.placeCommand (v : Word) (s : State) : State :=
  { s.startCommand v with env := { s.env with schedule := .engine :: s.env.schedule } }

end Sys2Proof.Machine
end

