-- ==== Sys2Proof/Machine/Step.lean ====
section
/-! DEFINITION. One step, and where the next command comes from. -/

namespace Sys2Proof.Machine

/-- One atomic step of one agent (R20, R234). -/
def step (s : State) : Host.Outcome State Fault Refusal := turn s

/-- The command of a table row, started as a host write of it to `CMD` starts it (R204), with the engine to move: the
next step is its engine step (log 7). -/
def State.withFetchWord (s : State) (nbits w : Nat) : State := s.placeCommand (BitVec.ofNat 32 (w % 2 ^ nbits))

end Sys2Proof.Machine
end

