-- ==== Sys2Proof/Safety.lean ====
section
/-! DEFINITION. What counts as a safe run, the machine's invariant, and the vocabulary of the statements. -/

namespace Sys2Proof.Machine

/-- The states runs reach keep this form. -/
structure Inv (s : State) : Prop where
  /-- R7, R8: the parameters are in their ranges. -/
  params : s.params.wf = true
  /-- The memories keep their canonical form. -/
  srcForm : s.src.wf
  rasterForm : s.raster.wf
  /-- R21: SRC holds offsets `0 .. P_SRC_BYTES-1` and RASTER the bytes of pixels `0 .. P_RASTER_PIXELS-1`. -/
  srcInside : ∀ c ∈ s.src, c.1 < s.params.srcBytes
  rasterInside : ∀ c ∈ s.raster, c.1 < 4 * s.params.rasterPixels
  /-- R26, R47: BUSY is 1 exactly when `pending` holds a command. -/
  busyPending : s.status.busy = s.pending.isSome
  /-- R26, R38, R204: while a command runs, DONE, ERR, ERRCODE, DIAG0 and DIAG1 are 0 and `CMD` holds its word. -/
  running : s.status.busy = true →
    s.status.done = false ∧ s.status.err = false ∧ s.status.errcode = .none ∧ s.out.diag0 = 0 ∧ s.out.diag1 = 0 ∧
      s.pending = some s.cmd
  /-- R200: ERR is 1 only with an error code. -/
  errCode : s.status.err = true → s.status.errcode ≠ .none

/-- A host program the block answers throughout: no access of it is unmapped, misaligned or of a wrong width. -/
def AdmittedScript (s : State) : Prop := ∀ op ∈ s.env.script, op.admitted s.params = true

/-- `k` steps of the machine. -/
abbrev run (k : Nat) (s : State) : Out := Host.Core.run Sys2Proof.core k s

/-- A safe run: no number of steps stops it. -/
def NeverStops (s : State) : Prop := ∀ k, ∃ t, run k s = .next t

/-- The engine moves next while a command is pending (R234). -/
def EngineToMove (s : State) : Prop := s.env.schedule.head? ≠ some .host ∨ s.env.script = []

/-- `acc` is the `w` low bits of the little-endian bytes of SRC from `off` on, its other bits 0 (R130, R131). -/
def IsSrcBits (s : State) (off w : Nat) (acc : Acc) : Prop :=
  ∀ k, acc.getLsbD k = (decide (k < w) && (s.srcByte (off + k / 8)).getLsbD (k % 8))

/-- The state in which a command that writes the `RO` registers `o` and the raster `m` ends without error (R205). -/
def completedWith (s : State) (o : Results) (m : Memory) : State :=
  { s with out := o, raster := m, pending := none, status := { s.status with busy := false, done := true } }

/-- The state in which a command ends with error `e` and diagnostics `d0`, `d1` (R206), nothing else written. -/
def erredWith (s : State) (e : ErrCode) (d0 d1 : Word) : State :=
  { s with
    out := { s.out with diag0 := d0, diag1 := d1 }
    pending := none
    status := { s.status with busy := false, done := true, err := true, errcode := e } }

/-- Two outcomes of a command that show the same registers, STATUS and RASTER. -/
def SameEffect (o o' : Out) : Prop :=
  ∃ t t', o = .next t ∧ o' = .next t' ∧ t.out = t'.out ∧ t.status = t'.status ∧ t.pending = t'.pending ∧
    t.raster = t'.raster

/-- SRC as a command may see it (R69): `SRC_LEN` and the bytes below it. -/
def SameSrc (s t : State) : Prop :=
  s.inp.srcLen = t.inp.srcLen ∧ ∀ k, k < s.inp.srcLen.toNat → s.srcByte k = t.srcByte k

def SameMasks (s t : State) : Prop :=
  s.inp.rMask = t.inp.rMask ∧ s.inp.gMask = t.inp.gMask ∧ s.inp.bMask = t.inp.bMask ∧ s.inp.aMask = t.inp.aMask

def SameSize (s t : State) : Prop := s.inp.width = t.inp.width ∧ s.inp.height = t.inp.height

/-- R84: the two states agree on the inputs the command reads. For ALPHA_PALETTE these are bits 15:0 of `ARG0` (R83). -/
def AgreeOnInputs (i : Instr) (s t : State) : Prop :=
  match i with
  | .nop => True
  | .probe => s.inp.pfFlags = t.inp.pfFlags ∧ s.inp.rgbBitCount = t.inp.rgbBitCount
  | .decode =>
    SameSize s t ∧ s.inp.pfFlags = t.inp.pfFlags ∧ s.inp.rgbBitCount = t.inp.rgbBitCount ∧ SameMasks s t ∧
      s.inp.fourcc = t.inp.fourcc ∧ s.inp.ctrl.forceDxt3 = t.inp.ctrl.forceDxt3 ∧ SameSrc s t
  | .decodeDxt1 => SameSize s t ∧ SameSrc s t
  | .decodeDxt3 => SameSize s t ∧ SameSrc s t
  | .decodeDxt5 => SameSize s t ∧ SameSrc s t
  | .blockDxt1 => s.inp.arg0 = t.inp.arg0 ∧ SameSrc s t
  | .blockDxt3 => s.inp.arg0 = t.inp.arg0 ∧ SameSrc s t
  | .blockDxt5 => s.inp.arg0 = t.inp.arg0 ∧ SameSrc s t
  | .colorPalette => s.inp.arg0 = t.inp.arg0
  | .alphaPalette => s.inp.arg0.extractLsb' 0 16 = t.inp.arg0.extractLsb' 0 16
  | .unpackRaw => s.inp.arg0 = t.inp.arg0 ∧ s.inp.arg1 = t.inp.arg1 ∧ SameMasks s t ∧ SameSrc s t
  | .unpackPixel =>
    s.inp.arg0 = t.inp.arg0 ∧ s.inp.arg1 = t.inp.arg1 ∧ SameSize s t ∧ s.inp.rgbBitCount = t.inp.rgbBitCount ∧
      SameMasks s t ∧ SameSrc s t
  | .unpackSurface => SameSize s t ∧ s.inp.rgbBitCount = t.inp.rgbBitCount ∧ SameMasks s t ∧ SameSrc s t

/-- The two states agree on everything but the input registers, SRC and the model's own `env`. -/
def SameOutside (s t : State) : Prop :=
  s.params = t.params ∧ s.out = t.out ∧ s.status = t.status ∧ s.pending = t.pending ∧ s.raster = t.raster

/-! ## The spec's formulas as numbers, for the statements

These say what 42_interp.md and 43_dxt.md say in plain arithmetic over the bytes of SRC, apart from the definitions of
Machine/Interp.lean and Machine/Dxt.lean that they are compared with. -/

/-- `pack(r, g, b, a)` of R15 as a number. -/
def wordOf (r g b a : Nat) : Word := BitVec.ofNat 32 (r + 2 ^ 8 * g + 2 ^ 16 * b + 2 ^ 24 * a)

/-- R150: the 8-bit channels of the RGB565 value `c`. -/
def red565 (c : Nat) : Nat := c / 2 ^ 11 % 32 * 8
def green565 (c : Nat) : Nat := c / 2 ^ 5 % 64 * 4
def blue565 (c : Nat) : Nat := c % 32 * 8

/-- R154 on each channel: the opaque weighted mean of the colours of `c0` and `c1`. -/
def meanWord (c0 c1 w0 w1 : Nat) : Word :=
  wordOf ((red565 c0 * w0 + red565 c1 * w1) / (w0 + w1)) ((green565 c0 * w0 + green565 c1 * w1) / (w0 + w1))
    ((blue565 c0 * w0 + blue565 c1 * w1) / (w0 + w1)) 255

/-- Palette entry `k` of the endpoints `c0`, `c1` (R151 to R153). -/
def paletteWord (c0 c1 k : Nat) : Word :=
  if k = 0 then wordOf (red565 c0) (green565 c0) (blue565 c0) 255
  else if k = 1 then wordOf (red565 c1) (green565 c1) (blue565 c1) 255
  else if c0 > c1 then (if k = 2 then meanWord c0 c1 2 1 else meanWord c0 c1 1 2)
  else if k = 2 then meanWord c0 c1 1 1
  else 0

/-- Alpha palette entry `k` of the anchors `a0`, `a1` (R155 to R157). -/
def alphaValue (a0 a1 k : Nat) : Nat :=
  if k = 0 then a0
  else if k = 1 then a1
  else if a0 > a1 then ((8 - k) * a0 + (k - 1) * a1) / 7
  else if k ≤ 5 then ((6 - k) * a0 + (k - 1) * a1) / 5
  else if k = 6 then 0
  else 255

/-- Byte `i` of SRC as a number, and the little-endian 16-bit value at `i`. -/
def srcNat (s : State) (i : Nat) : Nat := (s.srcByte i).toNat
def srcNat16 (s : State) (i : Nat) : Nat := srcNat s i + 256 * srcNat s (i + 1)

/-- Bit `n` of the little-endian bytes of SRC from `off` on. -/
def srcBit (s : State) (off n : Nat) : Nat := ((s.srcByte (off + n / 8)).getLsbD (n % 8)).toNat

/-- The SRC offset, inside its block, of the endpoints (R91, R92, R93). -/
def Variant.colorOffset : Variant → Nat
  | .dxt1 => 0
  | .dxt3 => 8
  | .dxt5 => 8

/-- R94: the palette word texel `t` of the block at `off` selects: two bits of index byte `t / 4`. -/
def texelColor (v : Variant) (s : State) (off t : Nat) : Word :=
  paletteWord (srcNat16 s (off + v.colorOffset)) (srcNat16 s (off + v.colorOffset + 2))
    (srcNat s (off + v.colorOffset + 4 + t / 4) / 4 ^ (t % 4) % 4)

/-- R95, R158: the explicit alpha of texel `t` of the DXT3 block at `off`. -/
def texelAlpha3 (s : State) (off t : Nat) : Nat := srcNat s (off + t / 2) / 16 ^ (t % 2) % 16 * 17

/-- R96, R155: the alpha of texel `t` of the DXT5 block at `off`: a 3-bit code that may straddle two bytes. -/
def texelAlpha5 (s : State) (off t : Nat) : Nat :=
  alphaValue (srcNat s off) (srcNat s (off + 1))
    (srcBit s (off + 2) (3 * t) + 2 * srcBit s (off + 2) (3 * t + 1) + 4 * srcBit s (off + 2) (3 * t + 2))

/-- The word of texel `t` of the block at `off` (R170 to R174): DXT1 keeps the palette entry's alpha, DXT3 and DXT5
replace it. -/
def texelWord (v : Variant) (s : State) (off t : Nat) : Word :=
  match v with
  | .dxt1 => texelColor .dxt1 s off t
  | .dxt3 => BitVec.ofNat 32 ((texelColor .dxt3 s off t).toNat % 2 ^ 24 + 2 ^ 24 * texelAlpha3 s off t)
  | .dxt5 => BitVec.ofNat 32 ((texelColor .dxt5 s off t).toNat % 2 ^ 24 + 2 ^ 24 * texelAlpha5 s off t)

/-- The single-block and the surface command of a variant. -/
def Variant.blockInstr : Variant → Instr
  | .dxt1 => .blockDxt1
  | .dxt3 => .blockDxt3
  | .dxt5 => .blockDxt5

def Variant.surfaceInstr : Variant → Instr
  | .dxt1 => .decodeDxt1
  | .dxt3 => .decodeDxt3
  | .dxt5 => .decodeDxt5

end Sys2Proof.Machine
end

