-- ==== Sys2Proof/Certificates/Slice0/Obligations.lean ====
section
/-! DEFINITION. The statements for the provers, in the order of OBLIGATIONS.json. -/

open Sys2Proof Sys2Proof.Machine

/-! ## Encoding -/

/-- R80, R81: decoding and encoding are inverse, word by word and byte by byte. -/
def Obligations.DecodeAndEncodeAreInverse : Prop :=
  (∀ (w : Word) (i : Instr), decode w = some i ↔ w = encode i) ∧
    ∀ (i : Instr) (rest : List Byte),
      decodeBytes ((encode i).extractLsb' 0 8 :: (encode i).extractLsb' 8 8 :: (encode i).extractLsb' 16 8 ::
        (encode i).extractLsb' 24 8 :: rest) = some (i, rest)

/-- R81: the commands' words are exactly the table's: bits 31:8 are 0 and bits 7:0 are the command's code. Every other
word is illegal (R82). -/
def Obligations.LegalWordsAreTheTable : Prop :=
  ∀ (w : Word) (i : Instr), decode w = some i ↔
    w.toNat / 256 = 0 ∧
      (w.toNat % 256, i) ∈
        [(0x00, Instr.nop), (0x01, .probe), (0x02, .decode), (0x10, .decodeDxt1), (0x11, .decodeDxt3), (0x12, .decodeDxt5),
          (0x18, .blockDxt1), (0x19, .blockDxt3), (0x1A, .blockDxt5), (0x20, .colorPalette), (0x21, .alphaPalette),
          (0x30, .unpackRaw), (0x31, .unpackPixel), (0x32, .unpackSurface)]

/-- R81, R82: words written out from the table, one or more for each family, and illegal words. -/
def Obligations.WrittenOutWordsDecode : Prop :=
  decode 0x00000001#32 = some .probe ∧ decode 0x00000002#32 = some .decode ∧ decode 0x00000010#32 = some .decodeDxt1 ∧
    decode 0x0000001A#32 = some .blockDxt5 ∧ decode 0x00000020#32 = some .colorPalette ∧
    decode 0x00000031#32 = some .unpackPixel ∧ decode 0x00000110#32 = none ∧ decode 0x00000003#32 = none ∧
    decode 0x0000007F#32 = none

/-! ## The step -/

/-- R234: when a command is pending and the engine moves, the step is the body of the decoded command, in the state
with the used-up choice of agent dropped; a command placed by `withFetchWord` runs at the very next step. -/
def Obligations.StepRunsTheDecodedCommand : Prop :=
  (∀ (s : State) (v : Word) (i : Instr), s.pending = some v → EngineToMove s → decode v = some i →
      step s = exec i { s with env := { s.env with schedule := s.env.schedule.tail } }) ∧
    ∀ (s : State) (w : Nat) (i : Instr), decode (BitVec.ofNat 32 w) = some i → w < 2 ^ 32 →
      step (s.withFetchWord 32 w) = exec i (s.startCommand (BitVec.ofNat 32 w))

/-- R234, R72 (a): the host's operations run in program order, one a step, while nothing is pending and, while a command
is pending, at each step the schedule gives the host; with nothing pending and no operation left, nothing happens. -/
def Obligations.StepRunsTheHostInOrder : Prop :=
  (∀ (s : State) (op : HostOp) (rest : List HostOp), s.pending = none → s.env.script = op :: rest →
      step s = hostStep op { s with env := { s.env with script := rest } }) ∧
    (∀ (s : State) (v : Word) (op : HostOp) (rest : List HostOp) (sched : List Agent), s.pending = some v →
      s.env.schedule = .host :: sched → s.env.script = op :: rest →
      step s = hostStep op { s with env := { s.env with script := rest, schedule := sched } }) ∧
    ∀ s : State, s.pending = none → s.env.script = [] → step s = .next s

/-- R203: an illegal word written to CMD while idle starts a command like any other (CmdWriteStartsACommand says what a
start is), and its engine step raises ILLEGAL_OP with the word in DIAG0 and writes nothing else. That the step with the
engine to move is the engine's, and uses up a schedule entry, is the model's choice (log 5). -/
def Obligations.IllegalWordRaisesIllegalOp : Prop :=
  ∀ (s : State) (v : Word), decode v = none →
    (s.status.busy = false → hostStep (.wr 0x008 v) s = .next (s.startCommand v)) ∧
    (s.pending = some v → EngineToMove s →
      step s = .next (erredWith { s with env := { s.env with schedule := s.env.schedule.tail } } .illegalOp v 0))

/-- R204: a host write to CMD while idle starts the command, in the same step, and IRQ falls. -/
def Obligations.CmdWriteStartsACommand : Prop :=
  ∀ (s : State) (v : Word), s.status.busy = false →
    ∃ t, hostStep (.wr 0x008 v) s = .next t ∧
      t = { s with
            cmd := v
            pending := some v
            status := ⟨true, false, false, s.status.wign, .none⟩
            out := { s.out with diag0 := 0, diag1 := 0 } } ∧
      t.irq = false

/-- R200, R205, R206: every command ends, in one step, idle with DONE set and WIGN as it was; from the state a start
leaves, either without error (ERRCODE and the diagnostics 0) or with ERR and a code that is not NONE. -/
def Obligations.EveryCommandEndsIdle : Prop :=
  ∀ (i : Instr) (s : State), ∃ t, exec i s = .next t ∧ t.pending = none ∧ t.status.busy = false ∧ t.status.done = true ∧
    t.status.wign = s.status.wign ∧
    (s.status.err = false → s.status.errcode = .none → s.out.diag0 = 0 → s.out.diag1 = 0 →
      (t.status.err = false ∧ t.status.errcode = .none ∧ t.out.diag0 = 0 ∧ t.out.diag1 = 0) ∨
        (t.status.err = true ∧ t.status.errcode ≠ .none))

/-! ## The host's accesses -/

/-- R46: while busy, a host write to an RW register or to CMD only sets WIGN. -/
def Obligations.BusyRegisterWriteOnlySetsWign : Prop :=
  ∀ (s : State) (off v : Word), s.status.busy = true →
    off ∈ [0x004#32, 0x008, 0x010, 0x014, 0x018, 0x01C, 0x020, 0x024, 0x028, 0x02C, 0x030, 0x034, 0x038, 0x03C] →
    hostStep (.wr off v) s = .next { s with status := { s.status with wign := true } }

/-- R22: an RW register reads back the last value written (CTRL its two defined bits, R24), and no other register, no
memory and nothing else changes. -/
def Obligations.InputRegisterReadsBack : Prop :=
  ∀ (s : State) (off v : Word), s.status.busy = false →
    off ∈ [0x004#32, 0x010, 0x014, 0x018, 0x01C, 0x020, 0x024, 0x028, 0x02C, 0x030, 0x034, 0x038, 0x03C] →
    ∃ inp, hostStep (.wr off v) s = .next { s with inp := inp } ∧
      { s with inp := inp }.readOffset off.toNat = .stored (if off = 0x004 then v &&& 3 else v) ∧
      ∀ off', off' ≠ off.toNat → { s with inp := inp }.readOffset off' = s.readOffset off'

/-- R22, R46: a host write to ID, to a read-only register, to a capacity register or to a reserved offset is ignored,
busy or not, and does not set WIGN. -/
def Obligations.ReadOnlyAndReservedWritesAreIgnored : Prop :=
  ∀ (s : State) (off v : Word), off.toNat < 0x1000 → off.toNat % 4 = 0 → (off = 0 ∨ 0x040 ≤ off.toNat) →
    hostStep (.wr off v) s = .next s

/-- R27: a host write to STATUS clears DONE, ERR and WIGN by its bits 1, 2 and 3 and changes nothing else, busy or not. -/
def Obligations.StatusWriteClearsByOnes : Prop :=
  ∀ (s : State) (v : Word),
    hostStep (.wr 0x00C v) s =
      .next { s with
              status :=
                { busy := s.status.busy
                  done := if v.getLsbD 1 then false else s.status.done
                  err := if v.getLsbD 2 then false else s.status.err
                  wign := if v.getLsbD 3 then false else s.status.wign
                  errcode := s.status.errcode } }

/-- R26, R201: the bits a read of STATUS shows, busy or not, with the numeric error codes. -/
def Obligations.StatusReadShowsItsFields : Prop :=
  ∀ s : State, ∃ w, s.readOffset 0x00C = .stored w ∧ w.getLsbD 0 = s.status.busy ∧ w.getLsbD 1 = s.status.done ∧
    w.getLsbD 2 = s.status.err ∧ w.getLsbD 3 = s.status.wign ∧ w.toNat / 16 % 16 = 0 ∧ w.toNat / 4096 = 0 ∧
    w.toNat / 256 % 16 =
      (match s.status.errcode with
      | .none => 0
      | .illegalOp => 1
      | .unrecognizedFormat => 2
      | .unsupportedFourcc => 3
      | .dataRead => 4
      | .bufferTooShort => 5
      | .badWidth => 6
      | .outOfRange => 7
      | .tooLarge => 8
      | .badLength => 9)

/-- R22 and the registers' own rules: a 32-bit host read of a register offset returns the value stored there, busy or
not; and the value at each offset while idle, CTRL by R24, STATUS by R26 (the numbers of ERRCODE are in
StatusReadShowsItsFields), CLASS by R100, ROUTE by R101; every other offset of the window reads 0. -/
def Obligations.RegisterMapReads : Prop :=
  (∀ (s : State) (off w : Word), off.toNat < 0x1000 → off.toNat % 4 = 0 → s.readOffset off.toNat = .stored w →
    hostStep (.rd off) s = .next { s with env := { s.env with reads := ⟨off, w⟩ :: s.env.reads } }) ∧
  ∀ s : State, s.status.busy = false →
    s.readOffset 0x000 = .stored 0x43545844 ∧
    s.readOffset 0x004 = .stored (BitVec.ofNat 32 (s.inp.ctrl.irqEn.toNat + 2 * s.inp.ctrl.forceDxt3.toNat)) ∧
    s.readOffset 0x008 = .stored s.cmd ∧
    s.readOffset 0x00C =
      .stored (BitVec.ofNat 32 (2 * s.status.done.toNat + 4 * s.status.err.toNat + 8 * s.status.wign.toNat +
        256 * s.status.errcode.code.toNat)) ∧
    s.readOffset 0x040 =
      .stored (match s.out.cls with
        | .none => 0
        | .rgba8 => 1
        | .rgba16 => 2
        | .ycbcr24 => 3
        | .gray8 => 4
        | .gray16 => 5
        | .alpha8 => 6
        | .alpha16 => 7
        | .compressed => 8) ∧
    s.readOffset 0x044 =
      .stored (match s.out.route with
        | .none => 0
        | .dxt1 => 1
        | .dxt3 => 2
        | .dxt5 => 3
        | .uncompressed => 4) ∧
    s.readOffset 0x010 = .stored s.inp.width ∧ s.readOffset 0x014 = .stored s.inp.height ∧
    s.readOffset 0x018 = .stored s.inp.pfFlags ∧ s.readOffset 0x01C = .stored s.inp.rgbBitCount ∧
    s.readOffset 0x020 = .stored s.inp.rMask ∧ s.readOffset 0x024 = .stored s.inp.gMask ∧
    s.readOffset 0x028 = .stored s.inp.bMask ∧ s.readOffset 0x02C = .stored s.inp.aMask ∧
    s.readOffset 0x030 = .stored s.inp.fourcc ∧ s.readOffset 0x034 = .stored s.inp.srcLen ∧
    s.readOffset 0x038 = .stored s.inp.arg0 ∧ s.readOffset 0x03C = .stored s.inp.arg1 ∧
    s.readOffset 0x048 = .stored s.out.diag0 ∧ s.readOffset 0x04C = .stored s.out.diag1 ∧
    s.readOffset 0x050 = .stored s.out.blocksDone ∧ s.readOffset 0x054 = .stored s.out.resultRgba ∧
    s.readOffset 0x058 = .stored s.out.accLo ∧ s.readOffset 0x05C = .stored s.out.accHi ∧
    (∀ k : Fin 4, s.readOffset (0x060 + 4 * k.val) = .stored s.out.pal[k]) ∧
    s.readOffset 0x070 = .stored s.out.apalLo ∧ s.readOffset 0x074 = .stored s.out.apalHi ∧
    s.readOffset 0x078 = .stored (BitVec.ofNat 32 s.params.srcBytes) ∧
    s.readOffset 0x07C = .stored (BitVec.ofNat 32 s.params.rasterPixels) ∧
    (∀ t : Fin 16, s.readOffset (0x080 + 4 * t.val) = .stored s.out.texel[t]) ∧
    ∀ off, 0x0C0 ≤ off → s.readOffset off = .stored 0

/-- R51: while busy, a host read of a result register returns the next free value; a read of any other register but
STATUS returns what it returns while idle. (What a read of STATUS returns is StatusReadShowsItsFields, busy or not.) -/
def Obligations.BusyResultReadIsAnyValue : Prop :=
  ∀ (s : State) (off : Word), s.status.busy = true → off.toNat % 4 = 0 → off.toNat < 0x1000 →
    ((0x040 ≤ off.toNat ∧ off.toNat < 0x0C0 ∧ off ≠ 0x078 ∧ off ≠ 0x07C) →
      hostStep (.rd off) s =
        .next { s with
                env := { s.env with draws := s.env.draws + 1, reads := ⟨off, Config.busyRead s.env.draws⟩ :: s.env.reads } }) ∧
    ((off.toNat < 0x040 ∨ 0x0C0 ≤ off.toNat ∨ off = 0x078 ∨ off = 0x07C) → off ≠ 0x00C →
      ∃ w, { s with status := { s.status with busy := false } }.readOffset off.toNat = .stored w ∧
        hostStep (.rd off) s = .next { s with env := { s.env with reads := ⟨off, w⟩ :: s.env.reads } })

/-- R62, R66, R67, R75: SRC written and read in words and bytes while idle, and left alone by writes while busy. -/
def Obligations.SrcWindowWriteThenRead : Prop :=
  ∀ (s : State) (a v : Word) (b : Byte) (i : Nat), s.params.wf = true → i < s.params.srcBytes →
    a = BitVec.ofNat 32 (0x01000000 + i) →
    (s.status.busy = false →
      (∃ t, hostStep (.wrb a b) s = .next t ∧ t.srcByte i = b ∧ (∀ j, j ≠ i → t.srcByte j = s.srcByte j) ∧
        t = { s with src := t.src }) ∧
      hostStep (.rdb a) s =
        .next { s with env := { s.env with reads := ⟨a, (s.srcByte i).setWidth 32⟩ :: s.env.reads } } ∧
      (i % 4 = 0 → i + 4 ≤ s.params.srcBytes →
        ∃ w, (∀ k, k < 4 → w.extractLsb' (8 * k) 8 = s.srcByte (i + k)) ∧
          hostStep (.rd a) s = .next { s with env := { s.env with reads := ⟨a, w⟩ :: s.env.reads } }) ∧
      (i % 4 = 0 → i + 4 ≤ s.params.srcBytes →
        ∃ t, hostStep (.wr a v) s = .next t ∧ (∀ k, k < 4 → t.srcByte (i + k) = v.extractLsb' (8 * k) 8) ∧
          (∀ j, j < i ∨ i + 4 ≤ j → t.srcByte j = s.srcByte j) ∧ t = { s with src := t.src } ∧
          hostStep (.rd a) t = .next { t with env := { t.env with reads := ⟨a, v⟩ :: t.env.reads } })) ∧
    (s.status.busy = true →
      hostStep (.wrb a b) s = .next { s with status := { s.status with wign := true } } ∧
      (i % 4 = 0 → i + 4 ≤ s.params.srcBytes →
        hostStep (.wr a v) s = .next { s with status := { s.status with wign := true } }))

/-- R63, R66, R71: the RASTER window: aligned 32-bit and 8-bit host writes are ignored (the 8-bit one by the model's
reading of R63 against R67, log 9), idle reads show the stored pixel, busy reads of both widths the next free value,
an 8-bit read its low 8 bits (log 3). -/
def Obligations.RasterWindowIsReadOnly : Prop :=
  ∀ (s : State) (a v : Word) (b : Byte) (p k : Nat), s.params.wf = true → p < s.params.rasterPixels → k < 4 →
    a = BitVec.ofNat 32 (0x10000000 + 4 * p) →
    hostStep (.wr a v) s = .next s ∧ hostStep (.wrb (a + BitVec.ofNat 32 k) b) s = .next s ∧
    (s.status.busy = false →
      hostStep (.rd a) s = .next { s with env := { s.env with reads := ⟨a, s.rasterWord p⟩ :: s.env.reads } } ∧
      hostStep (.rdb (a + BitVec.ofNat 32 k)) s =
        .next { s with
                env := { s.env with reads := ⟨a + BitVec.ofNat 32 k, ((s.rasterWord p).extractLsb' (8 * k) 8).setWidth 32⟩ :: s.env.reads } }) ∧
    (s.status.busy = true →
      hostStep (.rd a) s =
        .next { s with
                env := { s.env with draws := s.env.draws + 1, reads := ⟨a, Config.busyRead s.env.draws⟩ :: s.env.reads } } ∧
      hostStep (.rdb (a + BitVec.ofNat 32 k)) s =
        .next { s with
                env :=
                  { s.env with
                    draws := s.env.draws + 1
                    reads :=
                      ⟨a + BitVec.ofNat 32 k, ((Config.busyRead s.env.draws).setWidth 8).setWidth 32⟩ :: s.env.reads } })

/-- R64: an access at an address in no window, aligned or not, stops the run, and so does an aligned 32-bit access that
begins in SRC and ends beyond it (the model's deduction, log 6). R64 has a model refuse the access; that the stop is a
fault, and that it is named unmapped before misaligned, is log 8. -/
def Obligations.UnmappedAccessStops : Prop :=
  ∀ (s : State) (a v : Word) (b : Byte),
    (0x1000 ≤ a.toNat → ¬ (0x01000000 ≤ a.toNat ∧ a.toNat < 0x01000000 + s.params.srcBytes) →
      ¬ (0x10000000 ≤ a.toNat ∧ a.toNat < 0x10000000 + 4 * s.params.rasterPixels) →
      hostStep (.rd a) s = .fault (.unmapped a) ∧ hostStep (.wr a v) s = .fault (.unmapped a) ∧
        hostStep (.rdb a) s = .fault (.unmapped a) ∧ hostStep (.wrb a b) s = .fault (.unmapped a)) ∧
    (0x01000000 ≤ a.toNat → a.toNat < 0x01000000 + s.params.srcBytes → 0x01000000 + s.params.srcBytes < a.toNat + 4 →
      a.toNat % 4 = 0 →
      hostStep (.rd a) s = .fault (.unmapped a) ∧ hostStep (.wr a v) s = .fault (.unmapped a))

/-- R67: a misaligned 32-bit access to a mapped address, an 8-bit access to a register, and an access of another width
stop the run. That a misaligned 32-bit write to RASTER stops, and is not ignored as R63's writes are, is the model's
deduction (log 9); that a stop is a fault, and its name, log 8. -/
def Obligations.MisalignedOrOddWidthAccessStops : Prop :=
  ∀ (s : State) (a v : Word) (b : Byte) (bits : Nat),
    ((a.toNat < 0x1000 ∨ (0x01000000 ≤ a.toNat ∧ a.toNat < 0x01000000 + s.params.srcBytes) ∨
        (0x10000000 ≤ a.toNat ∧ a.toNat < 0x10000000 + 4 * s.params.rasterPixels)) → a.toNat % 4 ≠ 0 →
      hostStep (.rd a) s = .fault (.misaligned a) ∧ hostStep (.wr a v) s = .fault (.misaligned a)) ∧
    (a.toNat < 0x1000 →
      hostStep (.rdb a) s = .fault (.unsupportedWidth 8 a) ∧ hostStep (.wrb a b) s = .fault (.unsupportedWidth 8 a)) ∧
    (bits ≠ 8 → bits ≠ 32 → hostStep (.otherWidth bits a) s = .fault (.unsupportedWidth bits a))

/-- R68: a host read changes nothing in the block. -/
def Obligations.HostReadsHaveNoSideEffect : Prop :=
  ∀ (s t : State) (op : HostOp), ((∃ a, op = .rd a) ∨ (∃ a, op = .rdb a) ∨ op = .wait) → hostStep op s = .next t →
    t = { s with env := t.env } ∧ t.env.epoch = s.env.epoch ∧ t.env.schedule = s.env.schedule

/-! ## Reset and the interrupt line -/

/-- R22, R230: every register's value after power-on reset, and IRQ low. -/
def Obligations.ResetStateRegisters : Prop :=
  State.reset.readOffset 0x000 = .stored 0x43545844 ∧
    (∀ off, off < 0x1000 → off ≠ 0x000 → off ≠ 0x078 → off ≠ 0x07C → State.reset.readOffset off = .stored 0) ∧
    State.reset.pending = none ∧ State.reset.irq = false

/-- R230, R231: the reset input, at any time, gives every register its reset value, abandons a pending command without
an end (DONE is 0 and IRQ low), and leaves the block idle. -/
def Obligations.ResetInputResetsTheBlock : Prop :=
  ∀ s : State, ∃ t, hostStep .reset s = .next t ∧ t.readOffset 0x000 = .stored 0x43545844 ∧
    t.readOffset 0x078 = .stored (BitVec.ofNat 32 s.params.srcBytes) ∧
    t.readOffset 0x07C = .stored (BitVec.ofNat 32 s.params.rasterPixels) ∧
    (∀ off, off ≠ 0x000 → off ≠ 0x078 → off ≠ 0x07C → t.readOffset off = .stored 0) ∧
    t.pending = none ∧ t.irq = false

/-- R232 in the model's form (log 2, 5): after the reset input every byte of SRC and RASTER is the free value of the next
reset number, whatever it held; the parameters and the rest of the model's own `env` stay. -/
def Obligations.ResetLeavesMemoriesUnspecified : Prop :=
  ∀ s : State, ∃ t, hostStep .reset s = .next t ∧
    (∀ i, t.srcByte i = Config.srcDrawn (s.env.epoch + 1) i) ∧
    (∀ i, t.rasterByte i = Config.rasterDrawn (s.env.epoch + 1) i) ∧
    t.params = s.params ∧ t.env = { s.env with epoch := s.env.epoch + 1 }

/-- R49, R211: IRQ is IRQ_EN and DONE, low after reset; after the end of a command, with or without error, it is IRQ_EN;
it falls at every write that clears DONE, at every write that clears IRQ_EN and when a command starts; a write that sets
IRQ_EN leaves it at DONE, and a write of 0 to STATUS's bit 1 leaves it alone. -/
def Obligations.IrqFollowsDoneAndEnable : Prop :=
  (∀ s : State, s.irq = (s.inp.ctrl.irqEn && s.status.done)) ∧ State.reset.irq = false ∧
    (∀ (i : Instr) (s : State), ∃ t, exec i s = .next t ∧ t.irq = s.inp.ctrl.irqEn) ∧
    (∀ (s : State) (v : Word), ∃ t, hostStep (.wr 0x00C v) s = .next t ∧
      (v.getLsbD 1 = true → t.irq = false) ∧ (v.getLsbD 1 = false → t.irq = s.irq)) ∧
    (∀ (s : State) (v : Word), s.status.busy = false →
      (∃ t, hostStep (.wr 0x004 v) s = .next t ∧
        (v.getLsbD 0 = false → t.irq = false) ∧ (v.getLsbD 0 = true → t.irq = s.status.done)) ∧
      ∃ t, hostStep (.wr 0x008 v) s = .next t ∧ t.irq = false)

/-! ## NOP, PROBE, the classifier, the FourCC dispatch and DECODE -/

/-- R110: NOP completes and touches no data. -/
def Obligations.NopCompletes : Prop :=
  ∀ s : State, exec .nop s = .next (completedWith s s.out s.raster)

/-- R112: PROBE writes CLASS, and raises UNRECOGNIZED_FORMAT exactly when no branch matches.
DIAG0 is all of `PF_FLAGS` (R112 against R83, log 11). -/
def Obligations.ProbeWritesClass : Prop :=
  ∀ s : State,
    (classify s.params.rgbFlagRequired s.inp.pfFlags s.inp.rgbBitCount ≠ .none →
      exec .probe s =
        .next (completedWith s { s.out with cls := classify s.params.rgbFlagRequired s.inp.pfFlags s.inp.rgbBitCount } s.raster)) ∧
    (classify s.params.rgbFlagRequired s.inp.pfFlags s.inp.rgbBitCount = .none →
      exec .probe s =
        .next (erredWith { s with out := { s.out with cls := .none } } .unrecognizedFormat s.inp.pfFlags s.inp.rgbBitCount))

/-- R111, R98: the classifier's result for every flag word and bit count, by the bits of the flag word (ALPHA 1,
FOURCC 2, RGB 6, YUV 9, LUMINANCE 17; the places are R98's, from the spec's general knowledge, log 13). -/
def Obligations.ClassifierPriority : Prop :=
  ∀ (req : Bool) (flags bpp : Word),
    (bpp = 32 ∧ (req = false ∨ flags.getLsbD 6 = true) → classify req flags bpp = .rgba8) ∧
    (bpp = 64 ∧ (req = false ∨ flags.getLsbD 6 = true) → classify req flags bpp = .rgba16) ∧
    (bpp = 24 ∧ flags.getLsbD 9 = true → classify req flags bpp = .ycbcr24) ∧
    (bpp = 8 ∧ flags.getLsbD 17 = true → classify req flags bpp = .gray8) ∧
    (bpp = 16 ∧ flags.getLsbD 17 = true → classify req flags bpp = .gray16) ∧
    (bpp = 8 ∧ flags.getLsbD 17 = false ∧ flags.getLsbD 1 = true → classify req flags bpp = .alpha8) ∧
    (bpp = 16 ∧ flags.getLsbD 17 = false ∧ flags.getLsbD 1 = true → classify req flags bpp = .alpha16) ∧
    (¬ ((bpp = 32 ∨ bpp = 64) ∧ (req = false ∨ flags.getLsbD 6 = true)) → ¬ (bpp = 24 ∧ flags.getLsbD 9 = true) →
      ¬ ((bpp = 8 ∨ bpp = 16) ∧ (flags.getLsbD 17 = true ∨ flags.getLsbD 1 = true)) →
      classify req flags bpp = if flags.getLsbD 2 then .compressed else .none)

/-- R113, R99: the tag's four bytes choose the decoder exactly and case-sensitively, unless FORCE_DXT3 is set.
The byte values are R99's, from the spec's general knowledge (log 13). -/
def Obligations.FourccDispatch : Prop :=
  ∀ tag : Word, fourccRoute tag true = some .dxt3 ∧
    (fourccRoute tag false = some .dxt1 ↔ tag = wordOfBytes 0x44 0x58 0x54 0x31) ∧
    (fourccRoute tag false = some .dxt3 ↔ tag = wordOfBytes 0x44 0x58 0x54 0x32 ∨ tag = wordOfBytes 0x44 0x58 0x54 0x33) ∧
    (fourccRoute tag false = some .dxt5 ↔ tag = wordOfBytes 0x44 0x58 0x54 0x34 ∨ tag = wordOfBytes 0x44 0x58 0x54 0x35)

/-- R114: with the FOURCC flag and a recognised tag, DECODE is the surface command of the tag's variant, with CLASS,
ROUTE and BLOCKS_DONE written first; the codec runs whatever the class is. -/
def Obligations.DecodeRunsTheBlockCodec : Prop :=
  ∀ (s : State) (v : Variant), classify s.params.rgbFlagRequired s.inp.pfFlags s.inp.rgbBitCount ≠ .none →
    s.inp.pfFlags.getLsbD 2 = true → fourccRoute s.inp.fourcc s.inp.ctrl.forceDxt3 = some v →
    ∃ t, exec .decode s = .next t ∧
      exec v.surfaceInstr
        { s with
          out :=
            { s.out with
              cls := classify s.params.rgbFlagRequired s.inp.pfFlags s.inp.rgbBitCount
              route := v.route
              blocksDone := 0 } } = .next t

/-- R114: DECODE of compressed data completes: with the FOURCC flag, a class, a recognised tag and a buffer and an
image that fit, it leaves the raster and the block count of its variant's surface command, and CLASS and ROUTE. -/
def Obligations.DecodeCompressedCompletes : Prop :=
  ∀ (s : State) (v : Variant), classify s.params.rgbFlagRequired s.inp.pfFlags s.inp.rgbBitCount ≠ .none →
    s.inp.pfFlags.getLsbD 2 = true → fourccRoute s.inp.fourcc s.inp.ctrl.forceDxt3 = some v →
    s.inp.srcLen.toNat ≤ s.params.srcBytes → s.inp.width.toNat * s.inp.height.toNat ≤ s.params.rasterPixels →
    ∃ n m, exec v.surfaceInstr s = .next (completedWith s { s.out with blocksDone := n } m) ∧
      exec .decode s =
        .next (completedWith s
          { s.out with
            cls := classify s.params.rgbFlagRequired s.inp.pfFlags s.inp.rgbBitCount
            route := v.route
            blocksDone := n }
          m)

/-- R114: without the FOURCC flag and with a class, DECODE is UNPACK_SURFACE with CLASS, ROUTE and BLOCKS_DONE written
first, and BAD_WIDTH cannot occur: the bit count is one the unpacker accepts. -/
def Obligations.DecodeRunsTheUnpacker : Prop :=
  ∀ s : State, classify s.params.rgbFlagRequired s.inp.pfFlags s.inp.rgbBitCount ≠ .none →
    s.inp.pfFlags.getLsbD 2 = false →
    s.inp.rgbBitCount.toNat ∈ [8, 16, 24, 32, 64] ∧
    ∃ t, exec .decode s = .next t ∧
      exec .unpackSurface
        { s with
          out :=
            { s.out with
              cls := classify s.params.rgbFlagRequired s.inp.pfFlags s.inp.rgbBitCount
              route := .uncompressed
              blocksDone := 0 } } = .next t

/-- R114: DECODE of uncompressed data completes: without the FOURCC flag, with a class, and with a payload and an image
that fit, it leaves UNPACK_SURFACE's raster, CLASS, ROUTE and BLOCKS_DONE 0. -/
def Obligations.DecodeUncompressedCompletes : Prop :=
  ∀ s : State, classify s.params.rgbFlagRequired s.inp.pfFlags s.inp.rgbBitCount ≠ .none →
    s.inp.pfFlags.getLsbD 2 = false → s.inp.srcLen.toNat ≤ s.params.srcBytes →
    s.inp.width.toNat * s.inp.height.toNat ≤ s.params.rasterPixels →
    s.inp.width.toNat * (s.inp.rgbBitCount.toNat / 8) * s.inp.height.toNat ≤ s.inp.srcLen.toNat →
    ∃ m, exec .unpackSurface s = .next (completedWith s s.out m) ∧
      exec .decode s =
        .next (completedWith s
          { s.out with
            cls := classify s.params.rgbFlagRequired s.inp.pfFlags s.inp.rgbBitCount
            route := .uncompressed
            blocksDone := 0 }
          m)

/-- R114, R208: DECODE's first two errors, in their order, with CLASS, ROUTE and BLOCKS_DONE written before them.
DIAG0 of UNRECOGNIZED_FORMAT is all of `PF_FLAGS` (R114 against R83, log 11). -/
def Obligations.DecodeRejectsFormatThenTag : Prop :=
  ∀ s : State,
    (classify s.params.rgbFlagRequired s.inp.pfFlags s.inp.rgbBitCount = .none →
      exec .decode s =
        .next (erredWith { s with out := { s.out with cls := .none, route := .none, blocksDone := 0 } }
          .unrecognizedFormat s.inp.pfFlags s.inp.rgbBitCount)) ∧
    (classify s.params.rgbFlagRequired s.inp.pfFlags s.inp.rgbBitCount ≠ .none → s.inp.pfFlags.getLsbD 2 = true →
      fourccRoute s.inp.fourcc s.inp.ctrl.forceDxt3 = none →
      exec .decode s =
        .next (erredWith
          { s with
            out :=
              { s.out with
                cls := classify s.params.rgbFlagRequired s.inp.pfFlags s.inp.rgbBitCount
                route := .none
                blocksDone := 0 } }
          .unsupportedFourcc s.inp.fourcc 0))

/-! ## The bit-unpacker -/

/-- R132, R16: the bits of an extracted channel: bit `k` is bit `k + z` of the accumulator where the mask has it, `z`
the number of trailing zeros of the mask; a zero mask gives 0. -/
def Obligations.ExtractTakesTheMaskedBits : Prop :=
  ∀ (acc : Acc) (mask : Word), extract acc 0 = 0 ∧
    (mask ≠ 0 → ∃ z, z < 32 ∧ mask.getLsbD z = true ∧ (∀ j, j < z → mask.getLsbD j = false) ∧
      ∀ k, k < 8 → (extract acc mask).getLsbD k = (acc.getLsbD (k + z) && mask.getLsbD (k + z)))

/-- R135, R130, R131: UNPACK_RAW's accumulator and pixel. -/
def Obligations.UnpackRawResult : Prop :=
  ∀ s : State, 1 ≤ s.inp.arg1.toNat → s.inp.arg1.toNat ≤ 64 → s.inp.srcLen.toNat ≤ s.params.srcBytes →
    s.inp.arg0.toNat + (s.inp.arg1.toNat + 7) / 8 ≤ s.inp.srcLen.toNat →
    ∃ acc : Acc, IsSrcBits s s.inp.arg0.toNat s.inp.arg1.toNat acc ∧
      exec .unpackRaw s =
        .next (completedWith s
          { s.out with
            accLo := BitVec.ofNat 32 acc.toNat
            accHi := BitVec.ofNat 32 (acc.toNat / 2 ^ 32)
            resultRgba :=
              wordOf (extract acc s.inp.rMask).toNat (extract acc s.inp.gMask).toNat (extract acc s.inp.bMask).toNat
                (extract acc s.inp.aMask).toNat }
          s.raster)

/-- R135, R202, R208: UNPACK_RAW's errors, in order. -/
def Obligations.UnpackRawErrors : Prop :=
  ∀ s : State,
    (¬ (1 ≤ s.inp.arg1.toNat ∧ s.inp.arg1.toNat ≤ 64) →
      exec .unpackRaw s = .next (erredWith s .badWidth s.inp.arg1 0)) ∧
    (1 ≤ s.inp.arg1.toNat → s.inp.arg1.toNat ≤ 64 →
      (s.params.srcBytes < s.inp.srcLen.toNat →
        exec .unpackRaw s = .next (erredWith s .badLength s.inp.srcLen (BitVec.ofNat 32 s.params.srcBytes))) ∧
      (s.inp.srcLen.toNat ≤ s.params.srcBytes →
        s.inp.srcLen.toNat < s.inp.arg0.toNat + (s.inp.arg1.toNat + 7) / 8 →
        exec .unpackRaw s =
          .next (erredWith s .bufferTooShort (BitVec.ofNat 32 (s.inp.arg0.toNat + (s.inp.arg1.toNat + 7) / 8))
            s.inp.srcLen)))

/-- R136, R102, R134: UNPACK_PIXEL reads the pixel at column ARG0 of row ARG1, of an image whose rows are
`WIDTH * bpp / 8` bytes. -/
def Obligations.UnpackPixelResult : Prop :=
  ∀ (s : State) (n : Nat), s.inp.rgbBitCount.toNat = 8 * n → 1 ≤ n → n ≤ 8 →
    s.inp.arg0.toNat < s.inp.width.toNat → s.inp.arg1.toNat < s.inp.height.toNat →
    s.inp.srcLen.toNat ≤ s.params.srcBytes →
    s.inp.arg1.toNat * (s.inp.width.toNat * n) + s.inp.arg0.toNat * n + n ≤ s.inp.srcLen.toNat →
    ∃ acc : Acc,
      IsSrcBits s (s.inp.arg1.toNat * (s.inp.width.toNat * n) + s.inp.arg0.toNat * n) (8 * n) acc ∧
      exec .unpackPixel s =
        .next (completedWith s
          { s.out with
            accLo := BitVec.ofNat 32 acc.toNat
            accHi := BitVec.ofNat 32 (acc.toNat / 2 ^ 32)
            resultRgba :=
              wordOf (extract acc s.inp.rMask).toNat (extract acc s.inp.gMask).toNat (extract acc s.inp.bMask).toNat
                (extract acc s.inp.aMask).toNat }
          s.raster)

/-- R136, R202, R208: UNPACK_PIXEL's errors, in order. -/
def Obligations.UnpackPixelErrors : Prop :=
  ∀ s : State,
    ((∀ n, 1 ≤ n → n ≤ 8 → s.inp.rgbBitCount.toNat ≠ 8 * n) →
      exec .unpackPixel s = .next (erredWith s .badWidth s.inp.rgbBitCount 0)) ∧
    ∀ n, 1 ≤ n → n ≤ 8 → s.inp.rgbBitCount.toNat = 8 * n →
      (s.inp.width.toNat ≤ s.inp.arg0.toNat ∨ s.inp.height.toNat ≤ s.inp.arg1.toNat →
        exec .unpackPixel s = .next (erredWith s .outOfRange s.inp.arg0 s.inp.arg1)) ∧
      (s.inp.arg0.toNat < s.inp.width.toNat → s.inp.arg1.toNat < s.inp.height.toNat →
        (s.params.srcBytes < s.inp.srcLen.toNat →
          exec .unpackPixel s = .next (erredWith s .badLength s.inp.srcLen (BitVec.ofNat 32 s.params.srcBytes))) ∧
        (s.inp.srcLen.toNat ≤ s.params.srcBytes →
          s.inp.srcLen.toNat < s.inp.arg1.toNat * (s.inp.width.toNat * n) + s.inp.arg0.toNat * n + n →
          exec .unpackPixel s =
            .next (erredWith s .bufferTooShort
              (BitVec.ofNat 32 (s.inp.arg1.toNat * (s.inp.width.toNat * n) + s.inp.arg0.toNat * n + n)) s.inp.srcLen)))

/-- R137, R138: UNPACK_SURFACE gives every pixel of the image the unpacked pixel at its place in SRC, row by row with no
flip or wrap, and leaves every RASTER byte beyond the image alone. -/
def Obligations.UnpackSurfacePixels : Prop :=
  ∀ (s : State) (n : Nat), s.inp.rgbBitCount.toNat = 8 * n → 1 ≤ n → n ≤ 8 →
    s.inp.srcLen.toNat ≤ s.params.srcBytes → s.inp.width.toNat * s.inp.height.toNat ≤ s.params.rasterPixels →
    s.inp.width.toNat * n * s.inp.height.toNat ≤ s.inp.srcLen.toNat →
    ∃ m, exec .unpackSurface s = .next (completedWith s s.out m) ∧
      (∀ x y, x < s.inp.width.toNat → y < s.inp.height.toNat →
        ∃ acc : Acc, IsSrcBits s (y * (s.inp.width.toNat * n) + x * n) (8 * n) acc ∧
          (completedWith s s.out m).rasterWord (y * s.inp.width.toNat + x) =
            wordOf (extract acc s.inp.rMask).toNat (extract acc s.inp.gMask).toNat (extract acc s.inp.bMask).toNat
              (extract acc s.inp.aMask).toNat) ∧
      ∀ a, 4 * (s.inp.width.toNat * s.inp.height.toNat) ≤ a → (completedWith s s.out m).rasterByte a = s.rasterByte a

/-- R137, R202, R208: UNPACK_SURFACE's errors, in order; an error leaves everything else as it was. -/
def Obligations.UnpackSurfaceErrors : Prop :=
  ∀ s : State,
    ((∀ n, 1 ≤ n → n ≤ 8 → s.inp.rgbBitCount.toNat ≠ 8 * n) →
      exec .unpackSurface s = .next (erredWith s .badWidth s.inp.rgbBitCount 0)) ∧
    ∀ n, 1 ≤ n → n ≤ 8 → s.inp.rgbBitCount.toNat = 8 * n →
      (s.params.srcBytes < s.inp.srcLen.toNat →
        exec .unpackSurface s = .next (erredWith s .badLength s.inp.srcLen (BitVec.ofNat 32 s.params.srcBytes))) ∧
      (s.inp.srcLen.toNat ≤ s.params.srcBytes →
        (s.params.rasterPixels < s.inp.width.toNat * s.inp.height.toNat →
          exec .unpackSurface s = .next (erredWith s .tooLarge s.inp.width s.inp.height)) ∧
        (s.inp.width.toNat * s.inp.height.toNat ≤ s.params.rasterPixels →
          s.inp.srcLen.toNat < s.inp.width.toNat * n * s.inp.height.toNat →
          exec .unpackSurface s =
            .next (erredWith s .dataRead (BitVec.ofNat 32 (s.inp.width.toNat * n * s.inp.height.toNat)) s.inp.srcLen)))

/-! ## The interpolator -/

/-- R159, R85, R150 to R154: COLOR_PALETTE writes the four palette words of the endpoints in ARG0, in both modes, with
truncating division, and nothing else. -/
def Obligations.ColorPaletteResult : Prop :=
  ∀ s : State, ∃ p : Vector Word 4, exec .colorPalette s = .next (completedWith s { s.out with pal := p } s.raster) ∧
    ∀ k : Fin 4, p[k] = paletteWord (s.inp.arg0.toNat % 2 ^ 16) (s.inp.arg0.toNat / 2 ^ 16) k.val

/-- R160, R86, R155 to R157, R43: ALPHA_PALETTE writes the eight alpha values of the anchors in ARG0, code 0 in the
lowest byte, and nothing else. -/
def Obligations.AlphaPaletteResult : Prop :=
  ∀ s : State, ∃ lo hi : Word,
    exec .alphaPalette s = .next (completedWith s { s.out with apalLo := lo, apalHi := hi } s.raster) ∧
    ∀ k, k < 4 →
      lo.toNat / 256 ^ k % 256 = alphaValue (s.inp.arg0.toNat % 256) (s.inp.arg0.toNat / 256 % 256) k ∧
      hi.toNat / 256 ^ k % 256 = alphaValue (s.inp.arg0.toNat % 256) (s.inp.arg0.toNat / 256 % 256) (4 + k)

/-! ## The block decompressor -/

/-- R175, R170, R173: BLOCK_DXT1 writes the texels and the palette of the block at ARG0, and nothing else. -/
def Obligations.BlockDxt1Result : Prop :=
  ∀ s : State, s.inp.srcLen.toNat ≤ s.params.srcBytes → s.inp.arg0.toNat + 8 ≤ s.inp.srcLen.toNat →
    ∃ (p : Vector Word 4) (tex : Vector Word 16),
      exec .blockDxt1 s = .next (completedWith s { s.out with pal := p, texel := tex } s.raster) ∧
      (∀ k : Fin 4, p[k] = paletteWord (srcNat16 s s.inp.arg0.toNat) (srcNat16 s (s.inp.arg0.toNat + 2)) k.val) ∧
      ∀ t : Fin 16, tex[t] = texelWord .dxt1 s s.inp.arg0.toNat t.val

/-- R176, R171, R174, R95, R158: BLOCK_DXT3, with the explicit alpha in place of the palette entry's. -/
def Obligations.BlockDxt3Result : Prop :=
  ∀ s : State, s.inp.srcLen.toNat ≤ s.params.srcBytes → s.inp.arg0.toNat + 16 ≤ s.inp.srcLen.toNat →
    ∃ (p : Vector Word 4) (tex : Vector Word 16),
      exec .blockDxt3 s = .next (completedWith s { s.out with pal := p, texel := tex } s.raster) ∧
      (∀ k : Fin 4, p[k] = paletteWord (srcNat16 s (s.inp.arg0.toNat + 8)) (srcNat16 s (s.inp.arg0.toNat + 10)) k.val) ∧
      ∀ t : Fin 16, tex[t] = texelWord .dxt3 s s.inp.arg0.toNat t.val

/-- R177, R172, R174, R96: BLOCK_DXT5, with the coded alpha, and the alpha palette in APAL_LO and APAL_HI. -/
def Obligations.BlockDxt5Result : Prop :=
  ∀ s : State, s.inp.srcLen.toNat ≤ s.params.srcBytes → s.inp.arg0.toNat + 16 ≤ s.inp.srcLen.toNat →
    ∃ (p : Vector Word 4) (tex : Vector Word 16) (lo hi : Word),
      exec .blockDxt5 s =
        .next (completedWith s { s.out with pal := p, texel := tex, apalLo := lo, apalHi := hi } s.raster) ∧
      (∀ k : Fin 4, p[k] = paletteWord (srcNat16 s (s.inp.arg0.toNat + 8)) (srcNat16 s (s.inp.arg0.toNat + 10)) k.val) ∧
      (∀ t : Fin 16, tex[t] = texelWord .dxt5 s s.inp.arg0.toNat t.val) ∧
      ∀ k, k < 4 →
        lo.toNat / 256 ^ k % 256 = alphaValue (srcNat s s.inp.arg0.toNat) (srcNat s (s.inp.arg0.toNat + 1)) k ∧
        hi.toNat / 256 ^ k % 256 = alphaValue (srcNat s s.inp.arg0.toNat) (srcNat s (s.inp.arg0.toNat + 1)) (4 + k)

/-- R175, R176, R177, R208: the single-block commands' errors, in order, with the exact sum `ARG0 + bs` in the check
and its low 32 bits in DIAG0. -/
def Obligations.BlockErrors : Prop :=
  ∀ (s : State) (v : Variant),
    (s.params.srcBytes < s.inp.srcLen.toNat →
      exec v.blockInstr s = .next (erredWith s .badLength s.inp.srcLen (BitVec.ofNat 32 s.params.srcBytes))) ∧
    (s.inp.srcLen.toNat ≤ s.params.srcBytes → s.inp.srcLen.toNat < s.inp.arg0.toNat + v.blockSize →
      exec v.blockInstr s =
        .next (erredWith s .bufferTooShort (BitVec.ofNat 32 (s.inp.arg0.toNat + v.blockSize)) s.inp.srcLen))

/-- R179, R180, R184, R185, R186, R97: after DECODE_DXT1, DECODE_DXT3 or DECODE_DXT5 every pixel of the image is the
texel of its block where the block is whole in the buffer and 0 where it is not, BLOCKS_DONE is the number of whole
blocks, every RASTER byte beyond the image is as before, and no other register is written. -/
def Obligations.SurfaceDecodePixels : Prop :=
  ∀ (s : State) (v : Variant), s.inp.srcLen.toNat ≤ s.params.srcBytes →
    s.inp.width.toNat * s.inp.height.toNat ≤ s.params.rasterPixels →
    ∃ m,
      exec v.surfaceInstr s =
        .next (completedWith s
          { s.out with
            blocksDone :=
              BitVec.ofNat 32
                (min ((s.inp.width.toNat + 3) / 4 * ((s.inp.height.toNat + 3) / 4)) (s.inp.srcLen.toNat / v.blockSize)) }
          m) ∧
      (∀ x y, x < s.inp.width.toNat → y < s.inp.height.toNat →
        { s with raster := m }.rasterWord (y * s.inp.width.toNat + x) =
          if (y / 4 * ((s.inp.width.toNat + 3) / 4) + x / 4 + 1) * v.blockSize ≤ s.inp.srcLen.toNat then
            texelWord v s ((y / 4 * ((s.inp.width.toNat + 3) / 4) + x / 4) * v.blockSize) (4 * (y % 4) + x % 4)
          else 0) ∧
      ∀ a, 4 * (s.inp.width.toNat * s.inp.height.toNat) ≤ a → { s with raster := m }.rasterByte a = s.rasterByte a

/-- R179, R181 to R183, R208: the surface commands' errors, in order, with the exact product `WIDTH * HEIGHT`. -/
def Obligations.SurfaceDecodeErrors : Prop :=
  ∀ (s : State) (v : Variant),
    (s.params.srcBytes < s.inp.srcLen.toNat →
      exec v.surfaceInstr s = .next (erredWith s .badLength s.inp.srcLen (BitVec.ofNat 32 s.params.srcBytes))) ∧
    (s.inp.srcLen.toNat ≤ s.params.srcBytes → s.params.rasterPixels < s.inp.width.toNat * s.inp.height.toNat →
      exec v.surfaceInstr s = .next (erredWith s .tooLarge s.inp.width s.inp.height))

/-! ## Frames -/

/-- R35, R53, R62: no command changes an input register, CMD, SRC or a parameter; the model's own `env` is not a
command's either. -/
def Obligations.CommandsKeepTheirInputs : Prop :=
  ∀ (i : Instr) (s t : State), exec i s = .next t →
    t.inp = s.inp ∧ t.cmd = s.cmd ∧ t.params = s.params ∧ t.env = s.env ∧ (∀ a, t.srcByte a = s.srcByte a) ∧
      t.src = s.src

/-- R53: what each command may write among the result registers and RASTER. DIAG0 and DIAG1, which every command may
write, are left out; so is a surface command's image, the RASTER bytes below `4 * WIDTH * HEIGHT`. -/
def Obligations.CommandWriteSets : Prop :=
  ∀ (i : Instr) (s t : State), exec i s = .next t →
    (i ∉ [Instr.probe, .decode] → t.out.cls = s.out.cls) ∧
    (i ≠ .decode → t.out.route = s.out.route) ∧
    (i ∉ [Instr.decode, .decodeDxt1, .decodeDxt3, .decodeDxt5] → t.out.blocksDone = s.out.blocksDone) ∧
    (i ∉ [Instr.unpackRaw, .unpackPixel] →
      t.out.resultRgba = s.out.resultRgba ∧ t.out.accLo = s.out.accLo ∧ t.out.accHi = s.out.accHi) ∧
    (i ∉ [Instr.colorPalette, .blockDxt1, .blockDxt3, .blockDxt5] → t.out.pal = s.out.pal) ∧
    (i ∉ [Instr.alphaPalette, .blockDxt5] → t.out.apalLo = s.out.apalLo ∧ t.out.apalHi = s.out.apalHi) ∧
    (i ∉ [Instr.blockDxt1, .blockDxt3, .blockDxt5] → t.out.texel = s.out.texel) ∧
    (i ∉ [Instr.decode, .decodeDxt1, .decodeDxt3, .decodeDxt5, .unpackSurface] → ∀ a, t.rasterByte a = s.rasterByte a) ∧
    ∀ a, 4 * (s.inp.width.toNat * s.inp.height.toNat) ≤ a → t.rasterByte a = s.rasterByte a

/-- R207: a command that ends with an error leaves RASTER and the result registers exactly as they were, but for the
CLASS of PROBE and the CLASS, ROUTE and BLOCKS_DONE of DECODE. -/
def Obligations.ErrorEndLeavesDataUnchanged : Prop :=
  ∀ (i : Instr) (s t : State), exec i s = .next t → s.status.err = false → t.status.err = true →
    t.raster = s.raster ∧
      { t.out with diag0 := s.out.diag0, diag1 := s.out.diag1 } =
        { s.out with
          cls := if i = .probe ∨ i = .decode then t.out.cls else s.out.cls
          route := if i = .decode then t.out.route else s.out.route
          blocksDone := if i = .decode then 0 else s.out.blocksDone }

/-- R84, R69, R83: a command's effect depends on the inputs R84 lists for it and on no others; of SRC, on the bytes
below SRC_LEN alone. -/
def Obligations.CommandsReadOnlyTheirInputs : Prop :=
  ∀ (i : Instr) (s t : State), SameOutside s t → AgreeOnInputs i s t →
    SameEffect (exec i s) (exec i t)

/-! ## Whole-machine rules -/

/-- The invariant holds at power-on reset. -/
def Obligations.ResetMeetsTheInvariant : Prop := Inv State.reset

/-- Every step keeps the invariant: the memories' canonical form and bounds, BUSY exactly while a command is pending,
STATUS and the diagnostics clear while one runs, an error code whenever ERR is set. -/
def Obligations.StepKeepsTheInvariant : Prop := ∀ s t : State, Inv s → step s = .next t → Inv t

/-- R23, R45: ID, CAP_SRC_BYTES and CAP_RASTER_PIXELS read their constants in every state, busy or not, a host write to
one of them changes nothing, and no step changes the parameters, which stand in State by log 1. -/
def Obligations.ConstantsNeverChange : Prop :=
  (∀ s : State, s.readOffset 0x000 = .stored 0x43545844 ∧
      s.readOffset 0x078 = .stored (BitVec.ofNat 32 s.params.srcBytes) ∧
      s.readOffset 0x07C = .stored (BitVec.ofNat 32 s.params.rasterPixels)) ∧
    (∀ (s : State) (off v : Word), off ∈ [0x000#32, 0x078, 0x07C] → hostStep (.wr off v) s = .next s) ∧
    ∀ s t : State, step s = .next t → t.params = s.params

/-- R200, R64, R67: a host program without an unanswered access is never stopped, whatever commands it starts. -/
def Obligations.AdmittedProgramNeverStops : Prop := ∀ s : State, AdmittedScript s → NeverStops s

/-- R234: the busy window is finite: at most one step more than the schedule has entries. -/
def Obligations.BusyWindowIsFinite : Prop :=
  ∀ s : State, AdmittedScript s → s.pending.isSome = true →
    ∃ k t, k ≤ s.env.schedule.length + 1 ∧ run k s = .next t ∧ t.pending = none

/-- R104, R234: a `wait` after a command start ends, having read a STATUS word with DONE set. -/
def Obligations.WaitEnds : Prop :=
  ∀ (s : State) (rest : List HostOp), s.pending.isSome = true → s.env.script = .wait :: rest →
    ∃ k t w, k ≤ s.env.schedule.length + 2 ∧ run k s = .next t ∧ t.env.script = rest ∧
      t.env.reads.head? = some ⟨0x00C, w⟩ ∧ w.getLsbD 1 = true

/-- R46, R75, R235: whatever the host does in the busy window, short of a reset, the command has the effect it would
have had at once: host step and engine step commute, but for WIGN and the model's record of what the host does. -/
def Obligations.CommandUnaffectedByHostWhileBusy : Prop :=
  ∀ (s u : State) (op : HostOp) (v : Word), Inv s → s.pending = some v → op ≠ .reset → hostStep op s = .next u →
    ∃ t t', engineStep v s = .next t ∧ engineStep v u = .next t' ∧ u.pending = some v ∧
      t' = { t with status := { t.status with wign := t'.status.wign }, env := u.env }
end

