-- ==== Sys2Proof/Laws/Memory.lean ====
section
/-! SUPPORT. The laws of `Memory`: read after write, and that every memory operation keeps the canonical form and adds
no offset but those it writes. -/

namespace Sys2Proof.Machine.Memory

variable (m : Memory) (a i n : Nat) (b : Byte) (v : Word)

@[simp] theorem get_nil : Memory.get [] i = none := rfl

/-- Reading after writing one byte. -/
theorem get_put : (m.put a b).get i = if i = a then some b else m.get i := by
  induction m with
  | nil => simp [put, get]
  | cons c t ih =>
    obtain ⟨k, x⟩ := c
    simp only [put]
    split
    · simp [get]
    · split
      · subst_vars
        simp only [get]
        split <;> rfl
      · rename_i hne
        simp only [get, ih]
        by_cases hik : i = k
        · rw [if_pos hik, if_pos hik, if_neg (hik ▸ Ne.symm hne)]
        · rw [if_neg hik, if_neg hik]

/-- Every entry after writing one byte is the new one or an old one. -/
theorem mem_put {m : Memory} {a : Nat} {b : Byte} {c : Host.Cell} (hc : c ∈ m.put a b) : c = (a, b) ∨ c ∈ m := by
  induction m with
  | nil => simpa [put] using hc
  | cons d t ih =>
    obtain ⟨k, x⟩ := d
    simp only [put] at hc
    split at hc
    · simpa using hc
    · split at hc
      · rcases List.mem_cons.mp hc with h | h
        · exact .inl h
        · exact .inr (List.mem_cons_of_mem _ h)
      · rcases List.mem_cons.mp hc with h | h
        · exact .inr (h ▸ List.mem_cons_self)
        · exact (ih h).imp_right (List.mem_cons_of_mem _)

theorem wf_put {m : Memory} (h : m.wf) : (m.put a b).wf := by
  induction m with
  | nil => simp [put, wf]
  | cons d t ih =>
    obtain ⟨k, x⟩ := d
    have ht : Memory.wf t := (List.pairwise_cons.mp h).2
    have hk : ∀ c ∈ t, k < c.1 := (List.pairwise_cons.mp h).1
    simp only [put]
    split
    · rename_i hak
      refine List.pairwise_cons.mpr ⟨fun c hc => ?_, h⟩
      rcases List.mem_cons.mp hc with rfl | hc
      · exact hak
      · exact hak.trans (hk c hc)
    · split
      · subst_vars
        exact List.pairwise_cons.mpr ⟨hk, ht⟩
      · refine List.pairwise_cons.mpr ⟨fun c hc => ?_, ih ht⟩
        rcases mem_put hc with rfl | hc
        · dsimp only
          omega
        · exact hk c hc

/-- Reading after writing one word: its four byte lanes, every other byte as before. -/
theorem get_putWord : (m.putWord a v).get i =
    if i = a + 3 then some (byteLane v 3) else if i = a + 2 then some (byteLane v 2)
    else if i = a + 1 then some (byteLane v 1) else if i = a then some (byteLane v 0) else m.get i := by
  simp only [putWord, get_put]

theorem get_putWord_lane {k : Nat} (hk : k < 4) : (m.putWord a v).get (a + k) = some (byteLane v k) := by
  rw [get_putWord]
  obtain rfl | rfl | rfl | rfl : k = 0 ∨ k = 1 ∨ k = 2 ∨ k = 3 := by omega
  all_goals simp

theorem get_putWord_other (h : i < a ∨ a + 4 ≤ i) : (m.putWord a v).get i = m.get i := by
  rw [get_putWord, if_neg (by omega), if_neg (by omega), if_neg (by omega), if_neg (by omega)]

theorem mem_putWord {m : Memory} {a : Nat} {v : Word} {c : Host.Cell} (hc : c ∈ m.putWord a v) :
    (a ≤ c.1 ∧ c.1 < a + 4) ∨ c ∈ m := by
  rcases mem_put hc with rfl | hc
  · exact .inl ⟨by simp, by simp⟩
  rcases mem_put hc with rfl | hc
  · exact .inl ⟨by simp, by simp⟩
  rcases mem_put hc with rfl | hc
  · exact .inl ⟨by simp, by simp⟩
  rcases mem_put hc with rfl | hc
  · exact .inl ⟨by simp, by simp⟩
  exact .inr hc

theorem wf_putWord {m : Memory} (h : m.wf) : (m.putWord a v).wf := wf_put _ _ (wf_put _ _ (wf_put _ _ (wf_put _ _ h)))

theorem get_append (m' : Memory) : get (m ++ m') i = (m.get i).or (get m' i) := by
  induction m with
  | nil => simp [get]
  | cons c t ih =>
    obtain ⟨k, x⟩ := c
    simp only [List.cons_append, get, ih]
    split <;> simp

theorem get_zeros : get ((List.range n).map (fun a => (a, 0#8))) i = if i < n then some 0 else none := by
  induction n with
  | zero => simp
  | succ n ih =>
    rw [List.range_succ, List.map_append, get_append, ih]
    by_cases h : i < n
    · simp [h, Nat.lt_succ_of_lt h]
    · by_cases h' : i = n
      · simp [h', get]
      · have : ¬ i < n + 1 := by omega
        simp [h, h', get, this]

theorem get_filter (h : n ≤ i) : get (m.filter (fun c => n ≤ c.1)) i = m.get i := by
  induction m with
  | nil => rfl
  | cons c t ih =>
    obtain ⟨k, x⟩ := c
    by_cases hk : n ≤ k
    · simp [hk, get, ih]
    · have : i ≠ k := by omega
      simp [hk, get, ih, this]

/-- Reading after clearing the offsets below `n`. -/
theorem get_zeroBelow : (m.zeroBelow n).get i = if i < n then some 0 else m.get i := by
  rw [zeroBelow, get_append, get_zeros]
  split
  · rfl
  · rw [Option.none_or, get_filter _ _ _ (by omega)]

theorem mem_zeroBelow {m : Memory} {n : Nat} {c : Host.Cell} (hc : c ∈ m.zeroBelow n) : c.1 < n ∨ c ∈ m := by
  rcases List.mem_append.mp hc with h | h
  · obtain ⟨k, hk, rfl⟩ := List.mem_map.mp h
    exact .inl (List.mem_range.mp hk)
  · exact .inr (List.mem_filter.mp h).1

theorem wf_zeroBelow {m : Memory} (h : m.wf) : (m.zeroBelow n).wf := by
  refine List.pairwise_append.mpr ⟨?_, h.sublist List.filter_sublist, fun c hc d hd => ?_⟩
  · exact List.pairwise_map.mpr List.pairwise_lt_range
  · obtain ⟨k, hk, rfl⟩ := List.mem_map.mp hc
    have := List.mem_range.mp hk
    have := (List.mem_filter.mp hd).2
    simp only [decide_eq_true_eq] at this
    dsimp only
    omega

end Sys2Proof.Machine.Memory
end

