-- ==== Sys2Proof/Laws/State.lean ====
section
/-! SUPPORT. One lemma for each field of `State` after each update, so that no proof unfolds a record update. -/

namespace Sys2Proof.Machine.State

variable (s : State)

@[simp] theorem complete_params : s.complete.params = s.params := rfl
@[simp] theorem complete_inp : s.complete.inp = s.inp := rfl
@[simp] theorem complete_out : s.complete.out = s.out := rfl
@[simp] theorem complete_cmd : s.complete.cmd = s.cmd := rfl
@[simp] theorem complete_status : s.complete.status = s.status.complete := rfl
@[simp] theorem complete_pending : s.complete.pending = none := rfl
@[simp] theorem complete_src : s.complete.src = s.src := rfl
@[simp] theorem complete_raster : s.complete.raster = s.raster := rfl
@[simp] theorem complete_env : s.complete.env = s.env := rfl

@[simp] theorem raise_params (e : CmdError) : (s.raise e).params = s.params := rfl
@[simp] theorem raise_inp (e : CmdError) : (s.raise e).inp = s.inp := rfl
@[simp] theorem raise_out (e : CmdError) : (s.raise e).out = { s.out with diag0 := BitVec.ofNat 32 e.d0, diag1 := BitVec.ofNat 32 e.d1 } := rfl
@[simp] theorem raise_cmd (e : CmdError) : (s.raise e).cmd = s.cmd := rfl
@[simp] theorem raise_status (e : CmdError) : (s.raise e).status = s.status.error e.code := rfl
@[simp] theorem raise_pending (e : CmdError) : (s.raise e).pending = none := rfl
@[simp] theorem raise_src (e : CmdError) : (s.raise e).src = s.src := rfl
@[simp] theorem raise_raster (e : CmdError) : (s.raise e).raster = s.raster := rfl
@[simp] theorem raise_env (e : CmdError) : (s.raise e).env = s.env := rfl

@[simp] theorem startCommand_params (v : Word) : (s.startCommand v).params = s.params := rfl
@[simp] theorem startCommand_inp (v : Word) : (s.startCommand v).inp = s.inp := rfl
@[simp] theorem startCommand_out (v : Word) : (s.startCommand v).out = { s.out with diag0 := 0, diag1 := 0 } := rfl
@[simp] theorem startCommand_cmd (v : Word) : (s.startCommand v).cmd = v := rfl
@[simp] theorem startCommand_status (v : Word) : (s.startCommand v).status = s.status.start := rfl
@[simp] theorem startCommand_pending (v : Word) : (s.startCommand v).pending = some v := rfl
@[simp] theorem startCommand_src (v : Word) : (s.startCommand v).src = s.src := rfl
@[simp] theorem startCommand_raster (v : Word) : (s.startCommand v).raster = s.raster := rfl
@[simp] theorem startCommand_env (v : Word) : (s.startCommand v).env = s.env := rfl

@[simp] theorem ignoreWrite_params : s.ignoreWrite.params = s.params := rfl
@[simp] theorem ignoreWrite_inp : s.ignoreWrite.inp = s.inp := rfl
@[simp] theorem ignoreWrite_out : s.ignoreWrite.out = s.out := rfl
@[simp] theorem ignoreWrite_cmd : s.ignoreWrite.cmd = s.cmd := rfl
@[simp] theorem ignoreWrite_status : s.ignoreWrite.status = s.status.setWign := rfl
@[simp] theorem ignoreWrite_pending : s.ignoreWrite.pending = s.pending := rfl
@[simp] theorem ignoreWrite_src : s.ignoreWrite.src = s.src := rfl
@[simp] theorem ignoreWrite_raster : s.ignoreWrite.raster = s.raster := rfl
@[simp] theorem ignoreWrite_env : s.ignoreWrite.env = s.env := rfl

@[simp] theorem setRasterWord_params (p : Nat) (v : Word) : (s.setRasterWord p v).params = s.params := rfl
@[simp] theorem setRasterWord_inp (p : Nat) (v : Word) : (s.setRasterWord p v).inp = s.inp := rfl
@[simp] theorem setRasterWord_out (p : Nat) (v : Word) : (s.setRasterWord p v).out = s.out := rfl
@[simp] theorem setRasterWord_cmd (p : Nat) (v : Word) : (s.setRasterWord p v).cmd = s.cmd := rfl
@[simp] theorem setRasterWord_status (p : Nat) (v : Word) : (s.setRasterWord p v).status = s.status := rfl
@[simp] theorem setRasterWord_pending (p : Nat) (v : Word) : (s.setRasterWord p v).pending = s.pending := rfl
@[simp] theorem setRasterWord_src (p : Nat) (v : Word) : (s.setRasterWord p v).src = s.src := rfl
@[simp] theorem setRasterWord_raster (p : Nat) (v : Word) : (s.setRasterWord p v).raster = s.raster.putWord (4 * p) v := rfl
@[simp] theorem setRasterWord_env (p : Nat) (v : Word) : (s.setRasterWord p v).env = s.env := rfl

@[simp] theorem rasterClear_params : s.rasterClear.params = s.params := rfl
@[simp] theorem rasterClear_inp : s.rasterClear.inp = s.inp := rfl
@[simp] theorem rasterClear_out : s.rasterClear.out = s.out := rfl
@[simp] theorem rasterClear_cmd : s.rasterClear.cmd = s.cmd := rfl
@[simp] theorem rasterClear_status : s.rasterClear.status = s.status := rfl
@[simp] theorem rasterClear_pending : s.rasterClear.pending = s.pending := rfl
@[simp] theorem rasterClear_src : s.rasterClear.src = s.src := rfl
@[simp] theorem rasterClear_raster : s.rasterClear.raster = s.raster.zeroBelow (4 * (s.w * s.h)) := rfl
@[simp] theorem rasterClear_env : s.rasterClear.env = s.env := rfl

@[simp] theorem setSrcByte_params (i : Nat) (b : Byte) : (s.setSrcByte i b).params = s.params := rfl
@[simp] theorem setSrcByte_inp (i : Nat) (b : Byte) : (s.setSrcByte i b).inp = s.inp := rfl
@[simp] theorem setSrcByte_out (i : Nat) (b : Byte) : (s.setSrcByte i b).out = s.out := rfl
@[simp] theorem setSrcByte_cmd (i : Nat) (b : Byte) : (s.setSrcByte i b).cmd = s.cmd := rfl
@[simp] theorem setSrcByte_status (i : Nat) (b : Byte) : (s.setSrcByte i b).status = s.status := rfl
@[simp] theorem setSrcByte_pending (i : Nat) (b : Byte) : (s.setSrcByte i b).pending = s.pending := rfl
@[simp] theorem setSrcByte_src (i : Nat) (b : Byte) : (s.setSrcByte i b).src = s.src.put i b := rfl
@[simp] theorem setSrcByte_raster (i : Nat) (b : Byte) : (s.setSrcByte i b).raster = s.raster := rfl
@[simp] theorem setSrcByte_env (i : Nat) (b : Byte) : (s.setSrcByte i b).env = s.env := rfl

@[simp] theorem setSrcWord_params (i : Nat) (v : Word) : (s.setSrcWord i v).params = s.params := rfl
@[simp] theorem setSrcWord_inp (i : Nat) (v : Word) : (s.setSrcWord i v).inp = s.inp := rfl
@[simp] theorem setSrcWord_out (i : Nat) (v : Word) : (s.setSrcWord i v).out = s.out := rfl
@[simp] theorem setSrcWord_cmd (i : Nat) (v : Word) : (s.setSrcWord i v).cmd = s.cmd := rfl
@[simp] theorem setSrcWord_status (i : Nat) (v : Word) : (s.setSrcWord i v).status = s.status := rfl
@[simp] theorem setSrcWord_pending (i : Nat) (v : Word) : (s.setSrcWord i v).pending = s.pending := rfl
@[simp] theorem setSrcWord_src (i : Nat) (v : Word) : (s.setSrcWord i v).src = s.src.putWord i v := rfl
@[simp] theorem setSrcWord_raster (i : Nat) (v : Word) : (s.setSrcWord i v).raster = s.raster := rfl
@[simp] theorem setSrcWord_env (i : Nat) (v : Word) : (s.setSrcWord i v).env = s.env := rfl

@[simp] theorem setCls_params (c : PixClass) : (s.setCls c).params = s.params := rfl
@[simp] theorem setCls_inp (c : PixClass) : (s.setCls c).inp = s.inp := rfl
@[simp] theorem setCls_out (c : PixClass) : (s.setCls c).out = { s.out with cls := c } := rfl
@[simp] theorem setCls_cmd (c : PixClass) : (s.setCls c).cmd = s.cmd := rfl
@[simp] theorem setCls_status (c : PixClass) : (s.setCls c).status = s.status := rfl
@[simp] theorem setCls_pending (c : PixClass) : (s.setCls c).pending = s.pending := rfl
@[simp] theorem setCls_src (c : PixClass) : (s.setCls c).src = s.src := rfl
@[simp] theorem setCls_raster (c : PixClass) : (s.setCls c).raster = s.raster := rfl
@[simp] theorem setCls_env (c : PixClass) : (s.setCls c).env = s.env := rfl

@[simp] theorem setRoute_params (r : Route) : (s.setRoute r).params = s.params := rfl
@[simp] theorem setRoute_inp (r : Route) : (s.setRoute r).inp = s.inp := rfl
@[simp] theorem setRoute_out (r : Route) : (s.setRoute r).out = { s.out with route := r } := rfl
@[simp] theorem setRoute_cmd (r : Route) : (s.setRoute r).cmd = s.cmd := rfl
@[simp] theorem setRoute_status (r : Route) : (s.setRoute r).status = s.status := rfl
@[simp] theorem setRoute_pending (r : Route) : (s.setRoute r).pending = s.pending := rfl
@[simp] theorem setRoute_src (r : Route) : (s.setRoute r).src = s.src := rfl
@[simp] theorem setRoute_raster (r : Route) : (s.setRoute r).raster = s.raster := rfl
@[simp] theorem setRoute_env (r : Route) : (s.setRoute r).env = s.env := rfl

@[simp] theorem setBlocksDone_params (n : Nat) : (s.setBlocksDone n).params = s.params := rfl
@[simp] theorem setBlocksDone_inp (n : Nat) : (s.setBlocksDone n).inp = s.inp := rfl
@[simp] theorem setBlocksDone_out (n : Nat) : (s.setBlocksDone n).out = { s.out with blocksDone := BitVec.ofNat 32 n } := rfl
@[simp] theorem setBlocksDone_cmd (n : Nat) : (s.setBlocksDone n).cmd = s.cmd := rfl
@[simp] theorem setBlocksDone_status (n : Nat) : (s.setBlocksDone n).status = s.status := rfl
@[simp] theorem setBlocksDone_pending (n : Nat) : (s.setBlocksDone n).pending = s.pending := rfl
@[simp] theorem setBlocksDone_src (n : Nat) : (s.setBlocksDone n).src = s.src := rfl
@[simp] theorem setBlocksDone_raster (n : Nat) : (s.setBlocksDone n).raster = s.raster := rfl
@[simp] theorem setBlocksDone_env (n : Nat) : (s.setBlocksDone n).env = s.env := rfl

@[simp] theorem setPal_params (p : Vector Word 4) : (s.setPal p).params = s.params := rfl
@[simp] theorem setPal_inp (p : Vector Word 4) : (s.setPal p).inp = s.inp := rfl
@[simp] theorem setPal_out (p : Vector Word 4) : (s.setPal p).out = { s.out with pal := p } := rfl
@[simp] theorem setPal_cmd (p : Vector Word 4) : (s.setPal p).cmd = s.cmd := rfl
@[simp] theorem setPal_status (p : Vector Word 4) : (s.setPal p).status = s.status := rfl
@[simp] theorem setPal_pending (p : Vector Word 4) : (s.setPal p).pending = s.pending := rfl
@[simp] theorem setPal_src (p : Vector Word 4) : (s.setPal p).src = s.src := rfl
@[simp] theorem setPal_raster (p : Vector Word 4) : (s.setPal p).raster = s.raster := rfl
@[simp] theorem setPal_env (p : Vector Word 4) : (s.setPal p).env = s.env := rfl

@[simp] theorem setTexels_params (t : Vector Word 16) : (s.setTexels t).params = s.params := rfl
@[simp] theorem setTexels_inp (t : Vector Word 16) : (s.setTexels t).inp = s.inp := rfl
@[simp] theorem setTexels_out (t : Vector Word 16) : (s.setTexels t).out = { s.out with texel := t } := rfl
@[simp] theorem setTexels_cmd (t : Vector Word 16) : (s.setTexels t).cmd = s.cmd := rfl
@[simp] theorem setTexels_status (t : Vector Word 16) : (s.setTexels t).status = s.status := rfl
@[simp] theorem setTexels_pending (t : Vector Word 16) : (s.setTexels t).pending = s.pending := rfl
@[simp] theorem setTexels_src (t : Vector Word 16) : (s.setTexels t).src = s.src := rfl
@[simp] theorem setTexels_raster (t : Vector Word 16) : (s.setTexels t).raster = s.raster := rfl
@[simp] theorem setTexels_env (t : Vector Word 16) : (s.setTexels t).env = s.env := rfl

@[simp] theorem setApal_params (lo hi : Word) : (s.setApal lo hi).params = s.params := rfl
@[simp] theorem setApal_inp (lo hi : Word) : (s.setApal lo hi).inp = s.inp := rfl
@[simp] theorem setApal_out (lo hi : Word) : (s.setApal lo hi).out = { s.out with apalLo := lo, apalHi := hi } := rfl
@[simp] theorem setApal_cmd (lo hi : Word) : (s.setApal lo hi).cmd = s.cmd := rfl
@[simp] theorem setApal_status (lo hi : Word) : (s.setApal lo hi).status = s.status := rfl
@[simp] theorem setApal_pending (lo hi : Word) : (s.setApal lo hi).pending = s.pending := rfl
@[simp] theorem setApal_src (lo hi : Word) : (s.setApal lo hi).src = s.src := rfl
@[simp] theorem setApal_raster (lo hi : Word) : (s.setApal lo hi).raster = s.raster := rfl
@[simp] theorem setApal_env (lo hi : Word) : (s.setApal lo hi).env = s.env := rfl

@[simp] theorem setPixel_params (acc : Acc) (rgba : Word) : (s.setPixel acc rgba).params = s.params := rfl
@[simp] theorem setPixel_inp (acc : Acc) (rgba : Word) : (s.setPixel acc rgba).inp = s.inp := rfl
@[simp] theorem setPixel_out (acc : Acc) (rgba : Word) : (s.setPixel acc rgba).out = { s.out with accLo := acc.extractLsb' 0 32, accHi := acc.extractLsb' 32 32, resultRgba := rgba } := rfl
@[simp] theorem setPixel_cmd (acc : Acc) (rgba : Word) : (s.setPixel acc rgba).cmd = s.cmd := rfl
@[simp] theorem setPixel_status (acc : Acc) (rgba : Word) : (s.setPixel acc rgba).status = s.status := rfl
@[simp] theorem setPixel_pending (acc : Acc) (rgba : Word) : (s.setPixel acc rgba).pending = s.pending := rfl
@[simp] theorem setPixel_src (acc : Acc) (rgba : Word) : (s.setPixel acc rgba).src = s.src := rfl
@[simp] theorem setPixel_raster (acc : Acc) (rgba : Word) : (s.setPixel acc rgba).raster = s.raster := rfl
@[simp] theorem setPixel_env (acc : Acc) (rgba : Word) : (s.setPixel acc rgba).env = s.env := rfl

@[simp] theorem observe_params (a d : Word) : (s.observe a d).params = s.params := rfl
@[simp] theorem observe_inp (a d : Word) : (s.observe a d).inp = s.inp := rfl
@[simp] theorem observe_out (a d : Word) : (s.observe a d).out = s.out := rfl
@[simp] theorem observe_cmd (a d : Word) : (s.observe a d).cmd = s.cmd := rfl
@[simp] theorem observe_status (a d : Word) : (s.observe a d).status = s.status := rfl
@[simp] theorem observe_pending (a d : Word) : (s.observe a d).pending = s.pending := rfl
@[simp] theorem observe_src (a d : Word) : (s.observe a d).src = s.src := rfl
@[simp] theorem observe_raster (a d : Word) : (s.observe a d).raster = s.raster := rfl
@[simp] theorem observe_env (a d : Word) : (s.observe a d).env = { s.env with reads := ⟨a, d⟩ :: s.env.reads } := rfl

@[simp] theorem repeatOp_params (op : HostOp) : (s.repeatOp op).params = s.params := rfl
@[simp] theorem repeatOp_inp (op : HostOp) : (s.repeatOp op).inp = s.inp := rfl
@[simp] theorem repeatOp_out (op : HostOp) : (s.repeatOp op).out = s.out := rfl
@[simp] theorem repeatOp_cmd (op : HostOp) : (s.repeatOp op).cmd = s.cmd := rfl
@[simp] theorem repeatOp_status (op : HostOp) : (s.repeatOp op).status = s.status := rfl
@[simp] theorem repeatOp_pending (op : HostOp) : (s.repeatOp op).pending = s.pending := rfl
@[simp] theorem repeatOp_src (op : HostOp) : (s.repeatOp op).src = s.src := rfl
@[simp] theorem repeatOp_raster (op : HostOp) : (s.repeatOp op).raster = s.raster := rfl
@[simp] theorem repeatOp_env (op : HostOp) : (s.repeatOp op).env = { s.env with script := op :: s.env.script } := rfl

@[simp] theorem popSchedule_params : s.popSchedule.params = s.params := rfl
@[simp] theorem popSchedule_inp : s.popSchedule.inp = s.inp := rfl
@[simp] theorem popSchedule_out : s.popSchedule.out = s.out := rfl
@[simp] theorem popSchedule_cmd : s.popSchedule.cmd = s.cmd := rfl
@[simp] theorem popSchedule_status : s.popSchedule.status = s.status := rfl
@[simp] theorem popSchedule_pending : s.popSchedule.pending = s.pending := rfl
@[simp] theorem popSchedule_src : s.popSchedule.src = s.src := rfl
@[simp] theorem popSchedule_raster : s.popSchedule.raster = s.raster := rfl
@[simp] theorem popSchedule_env : s.popSchedule.env = { s.env with schedule := s.env.schedule.tail } := rfl

@[simp] theorem placeCommand_params (v : Word) : (s.placeCommand v).params = s.params := rfl
@[simp] theorem placeCommand_inp (v : Word) : (s.placeCommand v).inp = s.inp := rfl
@[simp] theorem placeCommand_out (v : Word) : (s.placeCommand v).out = { s.out with diag0 := 0, diag1 := 0 } := rfl
@[simp] theorem placeCommand_cmd (v : Word) : (s.placeCommand v).cmd = v := rfl
@[simp] theorem placeCommand_status (v : Word) : (s.placeCommand v).status = s.status.start := rfl
@[simp] theorem placeCommand_pending (v : Word) : (s.placeCommand v).pending = some v := rfl
@[simp] theorem placeCommand_src (v : Word) : (s.placeCommand v).src = s.src := rfl
@[simp] theorem placeCommand_raster (v : Word) : (s.placeCommand v).raster = s.raster := rfl
@[simp] theorem placeCommand_env (v : Word) : (s.placeCommand v).env = { s.env with schedule := .engine :: s.env.schedule } := rfl

@[simp] theorem applyReset_params : s.applyReset.params = s.params := rfl
@[simp] theorem applyReset_inp : s.applyReset.inp = .reset := rfl
@[simp] theorem applyReset_out : s.applyReset.out = .reset := rfl
@[simp] theorem applyReset_cmd : s.applyReset.cmd = 0 := rfl
@[simp] theorem applyReset_status : s.applyReset.status = .reset := rfl
@[simp] theorem applyReset_pending : s.applyReset.pending = none := rfl
@[simp] theorem applyReset_src : s.applyReset.src = [] := rfl
@[simp] theorem applyReset_raster : s.applyReset.raster = [] := rfl
@[simp] theorem applyReset_env : s.applyReset.env = { s.env with epoch := s.env.epoch + 1 } := rfl

@[simp] theorem complete_w : s.complete.w = s.w := rfl
@[simp] theorem complete_h : s.complete.h = s.h := rfl
@[simp] theorem raise_w (e : CmdError) : (s.raise e).w = s.w := rfl
@[simp] theorem raise_h (e : CmdError) : (s.raise e).h = s.h := rfl
@[simp] theorem startCommand_w (v : Word) : (s.startCommand v).w = s.w := rfl
@[simp] theorem startCommand_h (v : Word) : (s.startCommand v).h = s.h := rfl
@[simp] theorem ignoreWrite_w : s.ignoreWrite.w = s.w := rfl
@[simp] theorem ignoreWrite_h : s.ignoreWrite.h = s.h := rfl
@[simp] theorem setRasterWord_w (p : Nat) (v : Word) : (s.setRasterWord p v).w = s.w := rfl
@[simp] theorem setRasterWord_h (p : Nat) (v : Word) : (s.setRasterWord p v).h = s.h := rfl
@[simp] theorem rasterClear_w : s.rasterClear.w = s.w := rfl
@[simp] theorem rasterClear_h : s.rasterClear.h = s.h := rfl
@[simp] theorem setSrcByte_w (i : Nat) (b : Byte) : (s.setSrcByte i b).w = s.w := rfl
@[simp] theorem setSrcByte_h (i : Nat) (b : Byte) : (s.setSrcByte i b).h = s.h := rfl
@[simp] theorem setSrcWord_w (i : Nat) (v : Word) : (s.setSrcWord i v).w = s.w := rfl
@[simp] theorem setSrcWord_h (i : Nat) (v : Word) : (s.setSrcWord i v).h = s.h := rfl
@[simp] theorem setCls_w (c : PixClass) : (s.setCls c).w = s.w := rfl
@[simp] theorem setCls_h (c : PixClass) : (s.setCls c).h = s.h := rfl
@[simp] theorem setRoute_w (r : Route) : (s.setRoute r).w = s.w := rfl
@[simp] theorem setRoute_h (r : Route) : (s.setRoute r).h = s.h := rfl
@[simp] theorem setBlocksDone_w (n : Nat) : (s.setBlocksDone n).w = s.w := rfl
@[simp] theorem setBlocksDone_h (n : Nat) : (s.setBlocksDone n).h = s.h := rfl
@[simp] theorem setPal_w (p : Vector Word 4) : (s.setPal p).w = s.w := rfl
@[simp] theorem setPal_h (p : Vector Word 4) : (s.setPal p).h = s.h := rfl
@[simp] theorem setTexels_w (t : Vector Word 16) : (s.setTexels t).w = s.w := rfl
@[simp] theorem setTexels_h (t : Vector Word 16) : (s.setTexels t).h = s.h := rfl
@[simp] theorem setApal_w (lo hi : Word) : (s.setApal lo hi).w = s.w := rfl
@[simp] theorem setApal_h (lo hi : Word) : (s.setApal lo hi).h = s.h := rfl
@[simp] theorem setPixel_w (acc : Acc) (rgba : Word) : (s.setPixel acc rgba).w = s.w := rfl
@[simp] theorem setPixel_h (acc : Acc) (rgba : Word) : (s.setPixel acc rgba).h = s.h := rfl
@[simp] theorem observe_w (a d : Word) : (s.observe a d).w = s.w := rfl
@[simp] theorem observe_h (a d : Word) : (s.observe a d).h = s.h := rfl
@[simp] theorem repeatOp_w (op : HostOp) : (s.repeatOp op).w = s.w := rfl
@[simp] theorem repeatOp_h (op : HostOp) : (s.repeatOp op).h = s.h := rfl
@[simp] theorem popSchedule_w : s.popSchedule.w = s.w := rfl
@[simp] theorem popSchedule_h : s.popSchedule.h = s.h := rfl
@[simp] theorem placeCommand_w (v : Word) : (s.placeCommand v).w = s.w := rfl
@[simp] theorem placeCommand_h (v : Word) : (s.placeCommand v).h = s.h := rfl

section
variable (x y : Nat) (v : Word)

@[simp] theorem rasterWrite_params : (s.rasterWrite x y v).params = s.params := by unfold rasterWrite; split <;> rfl
@[simp] theorem rasterWrite_inp : (s.rasterWrite x y v).inp = s.inp := by unfold rasterWrite; split <;> rfl
@[simp] theorem rasterWrite_out : (s.rasterWrite x y v).out = s.out := by unfold rasterWrite; split <;> rfl
@[simp] theorem rasterWrite_cmd : (s.rasterWrite x y v).cmd = s.cmd := by unfold rasterWrite; split <;> rfl
@[simp] theorem rasterWrite_status : (s.rasterWrite x y v).status = s.status := by unfold rasterWrite; split <;> rfl
@[simp] theorem rasterWrite_pending : (s.rasterWrite x y v).pending = s.pending := by unfold rasterWrite; split <;> rfl
@[simp] theorem rasterWrite_src : (s.rasterWrite x y v).src = s.src := by unfold rasterWrite; split <;> rfl
theorem rasterWrite_raster : (s.rasterWrite x y v).raster =
    if x < s.w ∧ y < s.h then s.raster.putWord (4 * (y * s.w + x)) v else s.raster := by unfold rasterWrite; split <;> rfl
@[simp] theorem rasterWrite_env : (s.rasterWrite x y v).env = s.env := by unfold rasterWrite; split <;> rfl
@[simp] theorem rasterWrite_w : (s.rasterWrite x y v).w = s.w := by simp [State.w]
@[simp] theorem rasterWrite_h : (s.rasterWrite x y v).h = s.h := by simp [State.h]

end

section
variable (a m : Word) (v : ReadValue)

@[simp] theorem observeValue_params : (s.observeValue a m v).params = s.params := by cases v <;> rfl
@[simp] theorem observeValue_inp : (s.observeValue a m v).inp = s.inp := by cases v <;> rfl
@[simp] theorem observeValue_out : (s.observeValue a m v).out = s.out := by cases v <;> rfl
@[simp] theorem observeValue_cmd : (s.observeValue a m v).cmd = s.cmd := by cases v <;> rfl
@[simp] theorem observeValue_status : (s.observeValue a m v).status = s.status := by cases v <;> rfl
@[simp] theorem observeValue_pending : (s.observeValue a m v).pending = s.pending := by cases v <;> rfl
@[simp] theorem observeValue_src : (s.observeValue a m v).src = s.src := by cases v <;> rfl
@[simp] theorem observeValue_raster : (s.observeValue a m v).raster = s.raster := by cases v <;> rfl
@[simp] theorem observeValue_env_epoch : (s.observeValue a m v).env.epoch = s.env.epoch := by cases v <;> rfl
@[simp] theorem observeValue_env_script : (s.observeValue a m v).env.script = s.env.script := by cases v <;> rfl
@[simp] theorem observeValue_env_schedule : (s.observeValue a m v).env.schedule = s.env.schedule := by cases v <;> rfl

end

end Sys2Proof.Machine.State

namespace Sys2Proof.Machine.Status

variable (st : Status)

@[simp] theorem start_busy : st.start.busy = true := rfl
@[simp] theorem start_done : st.start.done = false := rfl
@[simp] theorem start_err : st.start.err = false := rfl
@[simp] theorem start_wign : st.start.wign = st.wign := rfl
@[simp] theorem start_errcode : st.start.errcode = .none := rfl

@[simp] theorem complete_busy : st.complete.busy = false := rfl
@[simp] theorem complete_done : st.complete.done = true := rfl
@[simp] theorem complete_err : st.complete.err = st.err := rfl
@[simp] theorem complete_wign : st.complete.wign = st.wign := rfl
@[simp] theorem complete_errcode : st.complete.errcode = st.errcode := rfl

@[simp] theorem error_busy (e : ErrCode) : (st.error e).busy = false := rfl
@[simp] theorem error_done (e : ErrCode) : (st.error e).done = true := rfl
@[simp] theorem error_err (e : ErrCode) : (st.error e).err = true := rfl
@[simp] theorem error_wign (e : ErrCode) : (st.error e).wign = st.wign := rfl
@[simp] theorem error_errcode (e : ErrCode) : (st.error e).errcode = e := rfl

@[simp] theorem setWign_busy : st.setWign.busy = st.busy := rfl
@[simp] theorem setWign_done : st.setWign.done = st.done := rfl
@[simp] theorem setWign_err : st.setWign.err = st.err := rfl
@[simp] theorem setWign_wign : st.setWign.wign = true := rfl
@[simp] theorem setWign_errcode : st.setWign.errcode = st.errcode := rfl

@[simp] theorem writeOneToClear_busy (v : Word) : (st.writeOneToClear v).busy = st.busy := rfl
@[simp] theorem writeOneToClear_done (v : Word) : (st.writeOneToClear v).done = (st.done && !v.getLsbD 1) := rfl
@[simp] theorem writeOneToClear_err (v : Word) : (st.writeOneToClear v).err = (st.err && !v.getLsbD 2) := rfl
@[simp] theorem writeOneToClear_wign (v : Word) : (st.writeOneToClear v).wign = (st.wign && !v.getLsbD 3) := rfl
@[simp] theorem writeOneToClear_errcode (v : Word) : (st.writeOneToClear v).errcode = st.errcode := rfl

end Sys2Proof.Machine.Status
end

