-- ==== Sys2Proof/Laws/Ops.lean ====
section
/-! SUPPORT. One lemma for each shared operation of Machine/Ops.lean and Machine/Operands.lean that says all it can do;
proofs cite these and do not unfold the operations. -/

namespace Sys2Proof.Machine

/-! ## Command ends -/

@[simp] theorem firstError_nil : firstError [] = none := rfl

@[simp] theorem firstError_some (e : CmdError) (t : List (Option CmdError)) : firstError (some e :: t) = some e := rfl

@[simp] theorem firstError_none (t : List (Option CmdError)) : firstError (none :: t) = firstError t := rfl

/-- The error a check list raises is one of the list's, and no check fails exactly when all pass. -/
theorem mem_of_firstError {l : List (Option CmdError)} {e : CmdError} (h : firstError l = some e) : some e ∈ l := by
  induction l with
  | nil => simp at h
  | cons c t ih =>
    cases c with
    | none => exact List.mem_cons_of_mem _ (ih h)
    | some d =>
      simp only [firstError_some, Option.some.injEq] at h
      exact h ▸ List.mem_cons_self

theorem firstError_eq_none {l : List (Option CmdError)} : firstError l = none ↔ ∀ c ∈ l, c = none := by
  induction l with
  | nil => simp
  | cons c t ih => cases c <;> simp [ih]

theorem endCommand_pass {s : State} {l : List (Option CmdError)} {body : State → State} (h : firstError l = none) :
    endCommand s l body = .next (body s).complete := by simp [endCommand, h]

theorem endCommand_fail {s : State} {l : List (Option CmdError)} {body : State → State} {e : CmdError}
    (h : firstError l = some e) : endCommand s l body = .next (s.raise e) := by simp [endCommand, h]

/-- Everything `endCommand` can do. -/
theorem endCommand_cases {s t : State} {l : List (Option CmdError)} {body : State → State}
    (h : endCommand s l body = .next t) :
    (∃ e, firstError l = some e ∧ t = s.raise e) ∨ (firstError l = none ∧ t = (body s).complete) := by
  cases hl : firstError l with
  | none => exact .inr ⟨rfl, by simpa [endCommand, hl] using h.symm⟩
  | some e => exact .inl ⟨e, rfl, by simpa [endCommand, hl] using h.symm⟩

theorem endCommand_next (s : State) (l : List (Option CmdError)) (body : State → State) :
    ∃ t, endCommand s l body = .next t := by
  cases hl : firstError l with
  | none => exact ⟨_, endCommand_pass hl⟩
  | some e => exact ⟨_, endCommand_fail hl⟩

/-! ## SRC -/

/-- `SrcRead` of `n` bytes is below `2^(8n)`. -/
theorem srcRead_lt (s : State) (off n : Nat) : s.srcRead off n < 256 ^ n := by
  induction n generalizing off with
  | zero => simp [State.srcRead]
  | succ n ih =>
    have h1 := ih (off + 1)
    have h2 := (s.srcByte off).isLt
    simp only [State.srcRead, Nat.pow_succ]
    omega

/-- `SrcRead` reads the bytes `off .. off + n - 1` and nothing else. -/
theorem srcRead_congr {s t : State} {off n : Nat} (h : ∀ i, off ≤ i → i < off + n → s.srcByte i = t.srcByte i) :
    s.srcRead off n = t.srcRead off n := by
  induction n generalizing off with
  | zero => rfl
  | succ n ih =>
    simp only [State.srcRead]
    rw [h off le_rfl (by omega), ih fun i h1 h2 => h i (by omega) (by omega)]

/-- `SrcRead`, bit by bit: bit `k` is bit `k % 8` of byte `k / 8`. -/
theorem testBit_srcRead (s : State) (off n k : Nat) :
    (s.srcRead off n).testBit k = (decide (k < 8 * n) && (s.srcByte (off + k / 8)).getLsbD (k % 8)) := by
  induction n generalizing off k with
  | zero => simp [State.srcRead]
  | succ n ih =>
    simp only [State.srcRead]
    rw [Nat.add_comm, show (256 : Nat) = 2 ^ 8 from rfl, Nat.testBit_two_pow_mul_add _ (s.srcByte off).isLt]
    split
    · rename_i h
      rw [Nat.div_eq_of_lt h, Nat.mod_eq_of_lt h, Nat.add_zero, decide_eq_true (by omega), Bool.true_and]
      rfl
    · rename_i h
      rw [ih, show off + 1 + (k - 8) / 8 = off + k / 8 by omega, show (k - 8) % 8 = k % 8 by omega]
      congr 1
      exact decide_eq_decide.mpr (by omega)

/-- Byte lane `k` of a 32-bit word read from SRC is the byte at `off + k` (R66). -/
theorem byteLane_srcRead (s : State) (off : Nat) {k : Nat} (h : k < 4) :
    byteLane (BitVec.ofNat 32 (s.srcRead off 4)) k = s.srcByte (off + k) := by
  apply BitVec.eq_of_getLsbD_eq
  intro j hj
  rw [byteLane, BitVec.getLsbD_extractLsb', BitVec.getLsbD_ofNat, testBit_srcRead, decide_eq_true hj,
    decide_eq_true (show 8 * k + j < 32 by omega),
    show (8 * k + j) / 8 = k by omega, show (8 * k + j) % 8 = j by omega]
  simp

theorem srcByte_congr {s t : State} (hs : s.src = t.src) (he : s.env.epoch = t.env.epoch) : s.srcByte = t.srcByte := by
  funext i
  simp [State.srcByte, hs, he]

theorem srcByte_setSrcByte (s : State) (i j : Nat) (b : Byte) :
    (s.setSrcByte i b).srcByte j = if j = i then b else s.srcByte j := by
  simp only [State.srcByte, State.setSrcByte_src, State.setSrcByte_env, Memory.get_put]
  split <;> rfl

theorem srcByte_setSrcWord_lane (s : State) (i : Nat) (v : Word) {k : Nat} (hk : k < 4) :
    (s.setSrcWord i v).srcByte (i + k) = byteLane v k := by
  simp [State.srcByte, Memory.get_putWord_lane _ _ _ hk]

theorem srcByte_setSrcWord_other (s : State) (i j : Nat) (v : Word) (h : j < i ∨ i + 4 ≤ j) :
    (s.setSrcWord i v).srcByte j = s.srcByte j := by
  simp [State.srcByte, Memory.get_putWord_other _ _ _ _ h]

/-! ## RASTER -/

/-- A word is its four byte lanes (20_memory.md R66). -/
theorem byteLanes_append (v : Word) : byteLane v 3 ++ byteLane v 2 ++ byteLane v 1 ++ byteLane v 0 = v := by
  simp only [byteLane]
  ext i hi
  simp only [BitVec.getElem_append, BitVec.getElem_extractLsb']
  split_ifs <;> simp only [← BitVec.getLsbD_eq_getElem] <;> congr 1 <;> omega

theorem rasterByte_congr {s t : State} (hs : s.raster = t.raster) (he : s.env.epoch = t.env.epoch) :
    s.rasterByte = t.rasterByte := by
  funext i
  simp [State.rasterByte, hs, he]

theorem rasterWord_congr {s t : State} (hs : s.raster = t.raster) (he : s.env.epoch = t.env.epoch) :
    s.rasterWord = t.rasterWord := by
  funext p
  simp [State.rasterWord, rasterByte_congr hs he]

theorem rasterByte_setRasterWord_other (s : State) (p i : Nat) (v : Word) (h : i / 4 ≠ p) :
    (s.setRasterWord p v).rasterByte i = s.rasterByte i := by
  simp [State.rasterByte, Memory.get_putWord_other (m := s.raster) (a := 4 * p) (i := i) (v := v) (by omega)]

/-- `RASTER[p] <- v` writes pixel word `p` and no other. -/
theorem rasterWord_setRasterWord (s : State) (p q : Nat) (v : Word) :
    (s.setRasterWord p v).rasterWord q = if q = p then v else s.rasterWord q := by
  split
  · rename_i h
    subst h
    have lane : ∀ k, k < 4 → (s.setRasterWord q v).rasterByte (4 * q + k) = byteLane v k := fun k hk => by
      simp [State.rasterByte, Memory.get_putWord_lane _ _ _ hk]
    have h0 := lane 0 (by decide)
    rw [Nat.add_zero] at h0
    rw [State.rasterWord, lane 1 (by decide), lane 2 (by decide), lane 3 (by decide), h0]
    exact byteLanes_append v
  · rename_i h
    have other : ∀ k, k < 4 → (s.setRasterWord p v).rasterByte (4 * q + k) = s.rasterByte (4 * q + k) :=
      fun k hk => rasterByte_setRasterWord_other s p _ v (by omega)
    have h0 := other 0 (by decide)
    rw [Nat.add_zero] at h0
    rw [State.rasterWord, State.rasterWord, other 1 (by decide), other 2 (by decide), other 3 (by decide), h0]

/-- `RasterWrite(x, y, v)` writes pixel `(x, y)` if it is inside the image, and nothing else. -/
theorem rasterWord_rasterWrite (s : State) (x y q : Nat) (v : Word) :
    (s.rasterWrite x y v).rasterWord q = if x < s.w ∧ y < s.h ∧ q = y * s.w + x then v else s.rasterWord q := by
  unfold State.rasterWrite
  by_cases h : x < s.w ∧ y < s.h
  · rw [if_pos h, rasterWord_setRasterWord]
    simp [h]
  · rw [if_neg h, if_neg (fun hc => h ⟨hc.1, hc.2.1⟩)]

theorem rasterByte_rasterClear (s : State) (i : Nat) :
    s.rasterClear.rasterByte i = if i < 4 * (s.w * s.h) then 0 else s.rasterByte i := by
  simp only [State.rasterByte, State.rasterClear_raster, State.rasterClear_env, Memory.get_zeroBelow]
  split <;> rfl

/-- `RasterClear()` sets the pixels of the image to 0 and leaves the others. -/
theorem rasterWord_rasterClear (s : State) (q : Nat) :
    s.rasterClear.rasterWord q = if q < s.w * s.h then 0 else s.rasterWord q := by
  simp only [State.rasterWord, rasterByte_rasterClear]
  split
  · rw [if_pos (by omega), if_pos (by omega), if_pos (by omega), if_pos (by omega)]
    rfl
  · rw [if_neg (by omega), if_neg (by omega), if_neg (by omega), if_neg (by omega)]

/-! ## Tables -/

@[simp] theorem tabulate_getElem {α : Type} (n : Nat) (f : Fin n → α) (i : Nat) (h : i < n) :
    (tabulate n f)[i] = f ⟨i, h⟩ := by simp [tabulate]

end Sys2Proof.Machine
end

