-- ==== Sys2Proof/Laws/Loops.lean ====
section
/-! SUPPORT. What the loops of Machine/Unpack.lean and Machine/Dxt.lean leave alone, and what one pass of each does. -/

namespace Sys2Proof.Machine

/-! ## Frames: a loop changes the raster, and the block loop the block count -/

theorem rasterWrite_eq (s : State) (x y : Nat) (v : Word) :
    s.rasterWrite x y v = { s with raster := (s.rasterWrite x y v).raster } := by
  unfold State.rasterWrite
  split <;> rfl

/-- A fold whose every step changes only the raster changes only the raster. -/
theorem foldl_raster_eq {α : Type} (f : State → α → State) (hf : ∀ s a, f s a = { s with raster := (f s a).raster })
    (l : List α) (s : State) : l.foldl f s = { s with raster := (l.foldl f s).raster } := by
  induction l generalizing s with
  | nil => rfl
  | cons a t ih =>
    rw [List.foldl_cons, ih (f s a), hf s a]

theorem writeBlock_eq (bx by' : Nat) (tex : Vector Color 16) (s : State) :
    writeBlock bx by' tex s = { s with raster := (writeBlock bx by' tex s).raster } :=
  foldl_raster_eq _ (fun s _ => rasterWrite_eq s _ _ _) _ s

theorem unpackSurface_eq (s : State) : unpackSurface s = { s with raster := (unpackSurface s).raster } :=
  foldl_raster_eq _ (fun s _ => rasterWrite_eq s _ _ _) _ s

theorem decodeBlocks_eq (v : Variant) (n k : Nat) (s : State) :
    decodeBlocks v n k s =
      { s with
        raster := (decodeBlocks v n k s).raster
        out := { s.out with blocksDone := (decodeBlocks v n k s).out.blocksDone } } := by
  induction n generalizing k s with
  | zero => rfl
  | succ n ih =>
    simp only [decodeBlocks]
    split
    · rfl
    · rw [ih, writeBlock_eq]
      rfl

theorem decodeSurface_eq (v : Variant) (s : State) :
    decodeSurface v s =
      { s with
        raster := (decodeSurface v s).raster
        out := { s.out with blocksDone := (decodeSurface v s).out.blocksDone } } := by
  unfold decodeSurface
  rw [decodeBlocks_eq]
  rfl

@[simp] theorem writeBlock_inp (bx by' : Nat) (tex : Vector Color 16) (s : State) :
    (writeBlock bx by' tex s).inp = s.inp := by rw [writeBlock_eq]

@[simp] theorem writeBlock_src (bx by' : Nat) (tex : Vector Color 16) (s : State) :
    (writeBlock bx by' tex s).src = s.src := by rw [writeBlock_eq]

@[simp] theorem writeBlock_env (bx by' : Nat) (tex : Vector Color 16) (s : State) :
    (writeBlock bx by' tex s).env = s.env := by rw [writeBlock_eq]

@[simp] theorem writeBlock_w (bx by' : Nat) (tex : Vector Color 16) (s : State) : (writeBlock bx by' tex s).w = s.w := by
  simp [State.w]

@[simp] theorem writeBlock_h (bx by' : Nat) (tex : Vector Color 16) (s : State) : (writeBlock bx by' tex s).h = s.h := by
  simp [State.h]

section
variable (s : State)

@[simp] theorem unpackSurface_params : (unpackSurface s).params = s.params := by rw [unpackSurface_eq]
@[simp] theorem unpackSurface_inp : (unpackSurface s).inp = s.inp := by rw [unpackSurface_eq]
@[simp] theorem unpackSurface_out : (unpackSurface s).out = s.out := by rw [unpackSurface_eq]
@[simp] theorem unpackSurface_cmd : (unpackSurface s).cmd = s.cmd := by rw [unpackSurface_eq]
@[simp] theorem unpackSurface_status : (unpackSurface s).status = s.status := by rw [unpackSurface_eq]
@[simp] theorem unpackSurface_pending : (unpackSurface s).pending = s.pending := by rw [unpackSurface_eq]
@[simp] theorem unpackSurface_src : (unpackSurface s).src = s.src := by rw [unpackSurface_eq]
@[simp] theorem unpackSurface_env : (unpackSurface s).env = s.env := by rw [unpackSurface_eq]

variable (v : Variant)

@[simp] theorem decodeSurface_params : (decodeSurface v s).params = s.params := by rw [decodeSurface_eq]
@[simp] theorem decodeSurface_inp : (decodeSurface v s).inp = s.inp := by rw [decodeSurface_eq]
@[simp] theorem decodeSurface_cmd : (decodeSurface v s).cmd = s.cmd := by rw [decodeSurface_eq]
@[simp] theorem decodeSurface_status : (decodeSurface v s).status = s.status := by rw [decodeSurface_eq]
@[simp] theorem decodeSurface_pending : (decodeSurface v s).pending = s.pending := by rw [decodeSurface_eq]
@[simp] theorem decodeSurface_src : (decodeSurface v s).src = s.src := by rw [decodeSurface_eq]
@[simp] theorem decodeSurface_env : (decodeSurface v s).env = s.env := by rw [decodeSurface_eq]

/-- Of the `RO` registers a surface decode writes `BLOCKS_DONE` alone (10_state.md R53). -/
theorem decodeSurface_out :
    (decodeSurface v s).out = { s.out with blocksDone := (decodeSurface v s).out.blocksDone } := by
  rw [decodeSurface_eq]

end

/-! ## Pixel numbers -/

/-- A pixel is determined by its number: `y * W + x` with `x < W`. -/
theorem pixel_unique {W x y x' y' : Nat} (hx : x < W) (hx' : x' < W) (h : y * W + x = y' * W + x') : x = x' ∧ y = y' := by
  have h1 : (y * W + x) % W = x := by rw [Nat.mul_comm, Nat.mul_add_mod, Nat.mod_eq_of_lt hx]
  have h2 : (y' * W + x') % W = x' := by rw [Nat.mul_comm, Nat.mul_add_mod, Nat.mod_eq_of_lt hx']
  have hxx : x = x' := by rw [← h1, h, h2]
  subst hxx
  have : y * W = y' * W := by omega
  exact ⟨rfl, Nat.eq_of_mul_eq_mul_right (by omega) this⟩

theorem pixel_lt {W H x y : Nat} (hx : x < W) (hy : y < H) : y * W + x < W * H := by
  have : (y + 1) * W ≤ H * W := Nat.mul_le_mul_right W hy
  rw [Nat.add_mul, Nat.one_mul] at this
  rw [Nat.mul_comm W H]
  omega

theorem pixel_col_row {W H p : Nat} (h : p < W * H) : p % W < W ∧ p / W < H ∧ p / W * W + p % W = p := by
  have hW : 0 < W := Nat.pos_of_ne_zero fun h0 => by simp [h0] at h
  exact ⟨Nat.mod_lt _ hW, Nat.div_lt_of_lt_mul h, by rw [Nat.mul_comm]; exact Nat.div_add_mod p W⟩

/-! ## One pass of each loop -/

/-- A fold of pixel writes whose words do not depend on the raster: each listed pixel gets its word. -/
theorem rasterWord_foldl_pixels (f : Nat → Word) (l : List Nat) (s : State) (hl : ∀ p ∈ l, p < s.w * s.h) (q : Nat) :
    (l.foldl (fun t p => t.rasterWrite (p % s.w) (p / s.w) (f p)) s).rasterWord q =
      if q ∈ l then f q else s.rasterWord q := by
  suffices H : ∀ (l : List Nat) (u : State), u.w = s.w → u.h = s.h → (∀ p ∈ l, p < s.w * s.h) →
      (l.foldl (fun t p => t.rasterWrite (p % s.w) (p / s.w) (f p)) u).rasterWord q =
        if q ∈ l then f q else u.rasterWord q from H l s rfl rfl hl
  intro l
  induction l with
  | nil => intros; simp
  | cons p t ih =>
    intro u hw hh hl
    obtain ⟨h1, h2, h3⟩ := pixel_col_row (hl p List.mem_cons_self)
    rw [List.foldl_cons, ih _ (by simp [hw]) (by simp [hh]) fun p hp => hl p (List.mem_cons_of_mem _ hp)]
    rw [rasterWord_rasterWrite, hw, hh]
    simp only [h1, h2, h3, true_and, List.mem_cons]
    by_cases hq : q ∈ t
    · simp [hq]
    · by_cases hp : q = p
      · simp [hp]
      · simp [hq, hp]

/-- One block: the texels inside the image land at their pixels, every other pixel is as before. -/
theorem rasterWord_writeBlock (bx by' : Nat) (tex : Vector Color 16) (s : State) {x y : Nat} (hx : x < s.w) (hy : y < s.h) :
    (writeBlock bx by' tex s).rasterWord (y * s.w + x) =
      if x / 4 = bx ∧ y / 4 = by' then pack (tex[4 * (y % 4) + x % 4]'(by omega)) else s.rasterWord (y * s.w + x) := by
  have key : ∀ (l : List (Fin 16)) (u : State), u.w = s.w → u.h = s.h →
      (l.foldl (fun u t => u.rasterWrite (4 * bx + t.val % 4) (4 * by' + t.val / 4) (pack tex[t])) u).rasterWord
          (y * s.w + x) =
        if x / 4 = bx ∧ y / 4 = by' ∧ (⟨4 * (y % 4) + x % 4, by omega⟩ : Fin 16) ∈ l then
          pack (tex[4 * (y % 4) + x % 4]'(by omega))
        else u.rasterWord (y * s.w + x) := by
    intro l
    induction l with
    | nil => intros; simp
    | cons t l ih =>
      intro u hw hh
      rw [List.foldl_cons, ih _ (by simp [hw]) (by simp [hh]), rasterWord_rasterWrite, hw, hh]
      by_cases hc : x / 4 = bx ∧ y / 4 = by' ∧ (⟨4 * (y % 4) + x % 4, by omega⟩ : Fin 16) ∈ l
      · rw [if_pos hc, if_pos ⟨hc.1, hc.2.1, List.mem_cons_of_mem _ hc.2.2⟩]
      · rw [if_neg hc]
        by_cases ht : x = 4 * bx + t.val % 4 ∧ y = 4 * by' + t.val / 4
        · obtain ⟨h1, h2⟩ := ht
          have ht' : (⟨4 * (y % 4) + x % 4, by omega⟩ : Fin 16) = t := Fin.ext (by simp only; omega)
          rw [if_pos ⟨h1 ▸ hx, h2 ▸ hy, by rw [h1, h2]⟩,
            if_pos ⟨by omega, by omega, ht' ▸ List.mem_cons_self⟩]
          have : t.val = 4 * (y % 4) + x % 4 := by rw [← ht']
          simp [← this]
        · rw [if_neg, if_neg]
          · rintro ⟨h1, h2, h3⟩
            rcases List.mem_cons.mp h3 with h4 | h4
            · exact ht (by subst h4; simp only; omega)
            · exact hc ⟨h1, h2, h4⟩
          · rintro ⟨h1, h2, h3⟩
            obtain ⟨h4, h5⟩ := pixel_unique hx h1 h3
            exact ht ⟨h4, h5⟩
  unfold writeBlock
  rw [key _ s rfl rfl]
  simp

/-- A block write leaves the raster words outside the image alone. -/
theorem rasterWord_writeBlock_outside (bx by' : Nat) (tex : Vector Color 16) (s : State) {q : Nat} (hq : s.w * s.h ≤ q) :
    (writeBlock bx by' tex s).rasterWord q = s.rasterWord q := by
  have key : ∀ (l : List (Fin 16)) (u : State), u.w = s.w → u.h = s.h →
      (l.foldl (fun u t => u.rasterWrite (4 * bx + t.val % 4) (4 * by' + t.val / 4) (pack tex[t])) u).rasterWord q =
        u.rasterWord q := by
    intro l
    induction l with
    | nil => intros; rfl
    | cons t l ih =>
      intro u hw hh
      rw [List.foldl_cons, ih _ (by simp [hw]) (by simp [hh]), rasterWord_rasterWrite, hw, hh, if_neg]
      rintro ⟨h1, h2, h3⟩
      have := pixel_lt h1 h2
      omega
  exact key _ s rfl rfl

/-! ## The loops keep the raster's canonical form and write inside the image only -/

/-- What pixel writes can make of a raster: the canonical form is kept, every entry is an old one or lies inside the
image, and the bytes beyond the image are as before. -/
structure RasterStep (s t : State) : Prop where
  size : t.w = s.w ∧ t.h = s.h
  form : s.raster.wf → t.raster.wf
  inside : ∀ c ∈ t.raster, c ∈ s.raster ∨ c.1 < 4 * (s.w * s.h)
  beyond : ∀ a, 4 * (s.w * s.h) ≤ a → t.raster.get a = s.raster.get a

theorem RasterStep.refl (s : State) : RasterStep s s := ⟨⟨rfl, rfl⟩, id, fun _ h => .inl h, fun _ _ => rfl⟩

theorem RasterStep.trans {s t u : State} (h : RasterStep s t) (h' : RasterStep t u) : RasterStep s u := by
  have hw := h.size.1
  have hh := h.size.2
  refine ⟨⟨h'.size.1.trans hw, h'.size.2.trans hh⟩, fun hs => h'.form (h.form hs), fun c hc => ?_, fun a ha => ?_⟩
  · rcases h'.inside c hc with h1 | h1
    · exact h.inside c h1
    · exact .inr (by rw [← hw, ← hh]; exact h1)
  · rw [h'.beyond a (by rw [hw, hh]; exact ha), h.beyond a ha]

theorem RasterStep.rasterWrite (s : State) (x y : Nat) (v : Word) : RasterStep s (s.rasterWrite x y v) := by
  refine ⟨⟨by simp, by simp⟩, ?_, ?_, ?_⟩ <;> rw [State.rasterWrite_raster]
  · intro h
    split
    · exact Memory.wf_putWord _ _ h
    · exact h
  · intro c hc
    split at hc
    · rename_i hin
      have := pixel_lt hin.1 hin.2
      rcases Memory.mem_putWord hc with h | h
      · exact .inr (by omega)
      · exact .inl h
    · exact .inl hc
  · intro a ha
    split
    · rename_i hin
      have := pixel_lt hin.1 hin.2
      exact Memory.get_putWord_other _ _ _ _ (.inr (by omega))
    · rfl

theorem RasterStep.rasterClear (s : State) : RasterStep s s.rasterClear := by
  refine ⟨⟨rfl, rfl⟩, fun h => Memory.wf_zeroBelow _ h, fun c hc => ?_, fun a ha => ?_⟩
  · exact (Memory.mem_zeroBelow hc).symm
  · rw [State.rasterClear_raster, Memory.get_zeroBelow, if_neg (by omega)]

theorem RasterStep.setBlocksDone (s : State) (n : Nat) : RasterStep s (s.setBlocksDone n) :=
  ⟨⟨rfl, rfl⟩, id, fun _ h => .inl h, fun _ _ => rfl⟩

theorem RasterStep.foldl {α : Type} {f : State → α → State} (hf : ∀ s a, RasterStep s (f s a)) (l : List α) (s : State) :
    RasterStep s (l.foldl f s) := by
  induction l generalizing s with
  | nil => exact .refl s
  | cons a t ih => exact (hf s a).trans (ih _)

theorem RasterStep.unpackSurface (s : State) : RasterStep s (unpackSurface s) :=
  .foldl (fun _ _ => .rasterWrite _ _ _ _) _ _

theorem RasterStep.writeBlock (bx by' : Nat) (tex : Vector Color 16) (s : State) : RasterStep s (writeBlock bx by' tex s) :=
  .foldl (fun _ _ => .rasterWrite _ _ _ _) _ _

theorem RasterStep.decodeBlocks (v : Variant) (n k : Nat) (s : State) : RasterStep s (decodeBlocks v n k s) := by
  induction n generalizing k s with
  | zero => exact .refl s
  | succ n ih =>
    simp only [Machine.decodeBlocks]
    split
    · exact .refl s
    · exact ((RasterStep.writeBlock _ _ _ _).trans (.setBlocksDone _ _)).trans (ih _ _)

theorem RasterStep.decodeSurface (v : Variant) (s : State) : RasterStep s (decodeSurface v s) :=
  ((RasterStep.rasterClear s).trans (.setBlocksDone _ _)).trans (.decodeBlocks _ _ _ _)

end Sys2Proof.Machine
end

