-- ==== Sys2Proof/Laws/Exec.lean ====
section
/-! SUPPORT. Everything the body of a command can do, said once for all commands: one of two ends, and what it may
have written by then. -/

namespace Sys2Proof.Machine

/-! ## The checks raise real errors -/

/-- A check that fails names an error that is not NONE. -/
def RaisesError (c : Option CmdError) : Prop := ∀ e, c = some e → e.code ≠ .none

theorem raisesError_ite {p : Prop} [Decidable p] {e : CmdError} (h : e.code ≠ .none) :
    RaisesError (if p then some e else none) := by
  intro d hd
  split at hd
  · exact Option.some.inj hd ▸ h
  · cases hd

theorem raisesError_checkSrcLen (s : State) : RaisesError (checkSrcLen s) := raisesError_ite (by simp)
theorem raisesError_checkRead (s : State) (off n : Nat) : RaisesError (checkRead s off n) := raisesError_ite (by simp)
theorem raisesError_checkPixel (s : State) (x y : Nat) : RaisesError (checkPixel s x y) := raisesError_ite (by simp)
theorem raisesError_checkRaster (s : State) : RaisesError (checkRaster s) := raisesError_ite (by simp)
theorem raisesError_checkPayload (s : State) : RaisesError (checkPayload s) := raisesError_ite (by simp)
theorem raisesError_checkClass (s : State) : RaisesError (checkClass s) := raisesError_ite (by simp)
theorem raisesError_checkWidth (w : Nat) (b : Bool) : RaisesError (checkWidth w b) := by
  intro e h
  unfold checkWidth at h
  split at h
  · cases h
  · exact Option.some.inj h ▸ (by simp)

theorem code_of_firstError {l : List (Option CmdError)} {e : CmdError} (hl : ∀ c ∈ l, RaisesError c)
    (h : firstError l = some e) : e.code ≠ .none := hl _ (mem_of_firstError h) e rfl

/-! ## What a command writes -/

/-- 10_state.md R53: `o'` differs from `o` only in registers command `i` may write; the diagnostics are written by the
command's end, not by its body. -/
structure MayWrite (i : Instr) (o o' : Results) : Prop where
  cls : i ∉ [Instr.probe, .decode] → o'.cls = o.cls
  route : i ≠ .decode → o'.route = o.route
  blocksDone : i ∉ [Instr.decode, .decodeDxt1, .decodeDxt3, .decodeDxt5] → o'.blocksDone = o.blocksDone
  pixel : i ∉ [Instr.unpackRaw, .unpackPixel] →
    o'.resultRgba = o.resultRgba ∧ o'.accLo = o.accLo ∧ o'.accHi = o.accHi
  pal : i ∉ [Instr.colorPalette, .blockDxt1, .blockDxt3, .blockDxt5] → o'.pal = o.pal
  apal : i ∉ [Instr.alphaPalette, .blockDxt5] → o'.apalLo = o.apalLo ∧ o'.apalHi = o.apalHi
  texel : i ∉ [Instr.blockDxt1, .blockDxt3, .blockDxt5] → o'.texel = o.texel
  diag : o'.diag0 = o.diag0 ∧ o'.diag1 = o.diag1

theorem MayWrite.refl (i : Instr) (o : Results) : MayWrite i o o := by constructor <;> simp

/-- 60_exceptions.md R207: what a command may have written when it raises. -/
def BeforeError (i : Instr) (o o' : Results) : Prop :=
  o' =
    { o with
      cls := if i = .probe ∨ i = .decode then o'.cls else o.cls
      route := if i = .decode then o'.route else o.route
      blocksDone := if i = .decode then 0 else o.blocksDone }

/-- The raster a command leaves: the surface commands change it inside the image, which fits in RASTER. -/
structure RasterWritten (i : Instr) (s : State) (m : Memory) : Prop where
  only : i ∉ [Instr.decode, .decodeDxt1, .decodeDxt3, .decodeDxt5, .unpackSurface] → m = s.raster
  form : s.raster.wf → m.wf
  inside : ∀ c ∈ m, c ∈ s.raster ∨ c.1 < 4 * s.params.rasterPixels
  beyond : ∀ a, 4 * (s.w * s.h) ≤ a → m.get a = s.raster.get a

theorem RasterWritten.refl (i : Instr) (s : State) : RasterWritten i s s.raster :=
  ⟨fun _ => rfl, id, fun _ h => .inl h, fun _ _ => rfl⟩

/-- The two ends of a command's body (R205, R206), and what it has written by then. -/
inductive Ends (i : Instr) (s t : State) : Prop where
  | error (o : Results) (e : CmdError) (hw : MayWrite i s.out o) (hb : BeforeError i s.out o) (hc : e.code ≠ .none)
      (ht : t = State.raise e { s with out := o })
  | complete (o : Results) (m : Memory) (hw : MayWrite i s.out o) (hm : RasterWritten i s m)
      (ht : t = State.complete { s with out := o, raster := m })

/-- A command whose checks come first and whose body writes only result registers. -/
theorem ends_of_registers {i : Instr} {s t : State} {l : List (Option CmdError)} {body : State → State}
    (h : endCommand s l body = .next t) (hl : ∀ c ∈ l, RaisesError c)
    (hb : body s = { s with out := (body s).out }) (hw : MayWrite i s.out (body s).out)
    (hi : i ≠ .probe ∧ i ≠ .decode) : Ends i s t := by
  rcases endCommand_cases h with ⟨e, he, rfl⟩ | ⟨-, rfl⟩
  · exact .error s.out e (.refl i s.out) (by simp [BeforeError, hi.1, hi.2]) (code_of_firstError hl he) rfl
  · refine .complete (body s).out s.raster hw (.refl i s) ?_
    rw [hb]

theorem width_le_of_checks {s : State} {l : List (Option CmdError)} (h : firstError l = none) (hm : checkRaster s ∈ l) :
    s.w * s.h ≤ s.params.rasterPixels := by
  have := firstError_eq_none.mp h _ hm
  unfold checkRaster at this
  split at this
  · cases this
  · omega

theorem rasterWritten_of_step {i : Instr} {s t : State} (h : RasterStep s t)
    (hi : i ∈ [Instr.decode, .decodeDxt1, .decodeDxt3, .decodeDxt5, .unpackSurface])
    (hf : s.w * s.h ≤ s.params.rasterPixels) : RasterWritten i s t.raster :=
  ⟨fun hn => absurd hi hn, h.form, fun c hc => (h.inside c hc).imp_right fun h => by omega, h.beyond⟩

theorem raisesError_unpackChecks (s : State) : ∀ c ∈ unpackChecks s, RaisesError c := by
  intro c hc
  simp only [unpackChecks, List.mem_cons, List.not_mem_nil, or_false] at hc
  rcases hc with rfl | rfl | rfl | rfl
  · exact raisesError_checkWidth _ _
  · exact raisesError_checkSrcLen _
  · exact raisesError_checkRaster _
  · exact raisesError_checkPayload _

theorem raisesError_surfaceChecks (s : State) : ∀ c ∈ surfaceChecks s, RaisesError c := by
  intro c hc
  simp only [surfaceChecks, List.mem_cons, List.not_mem_nil, or_false] at hc
  rcases hc with rfl | rfl
  · exact raisesError_checkSrcLen _
  · exact raisesError_checkRaster _

theorem raisesError_blockChecks (v : Variant) (s : State) : ∀ c ∈ blockChecks v s, RaisesError c := by
  intro c hc
  simp only [blockChecks, List.mem_cons, List.not_mem_nil, or_false] at hc
  rcases hc with rfl | rfl
  · exact raisesError_checkSrcLen _
  · exact raisesError_checkRead _ _ _

/-- UNPACK_SURFACE's ends, and those of DECODE's uncompressed branch from the state `{ s with out := o }`. -/
theorem ends_unpackSurface {i : Instr} {s t : State} {o : Results} (hi : i = .unpackSurface ∨ i = .decode)
    (hw : MayWrite i s.out o) (hb : BeforeError i s.out o)
    (h : endCommand { s with out := o } (unpackChecks { s with out := o }) unpackSurface = .next t) : Ends i s t := by
  rcases endCommand_cases h with ⟨e, he, rfl⟩ | ⟨hn, rfl⟩
  · exact .error o e hw hb (code_of_firstError (raisesError_unpackChecks _) he) rfl
  · have hf := width_le_of_checks (s := { s with out := o }) hn (by simp [unpackChecks])
    refine .complete o (unpackSurface { s with out := o }).raster hw ?_ (by rw [unpackSurface_eq])
    have := rasterWritten_of_step (i := i) (RasterStep.unpackSurface { s with out := o })
      (by rcases hi with rfl | rfl <;> simp) hf
    exact ⟨this.only, this.form, this.inside, this.beyond⟩

/-- The ends of `DecodeSurface` from the state `{ s with out := o }`. -/
theorem ends_decodeSurface {i : Instr} {s t : State} {o : Results} {v : Variant}
    (hi : i ∈ [Instr.decode, .decodeDxt1, .decodeDxt3, .decodeDxt5])
    (hw : MayWrite i s.out o) (hb : BeforeError i s.out o)
    (h : endCommand { s with out := o } (surfaceChecks { s with out := o }) (decodeSurface v) = .next t) : Ends i s t := by
  rcases endCommand_cases h with ⟨e, he, rfl⟩ | ⟨hn, rfl⟩
  · exact .error o e hw hb (code_of_firstError (raisesError_surfaceChecks _) he) rfl
  · have hf := width_le_of_checks (s := { s with out := o }) hn (by simp [surfaceChecks])
    refine .complete { o with blocksDone := (decodeSurface v { s with out := o }).out.blocksDone }
      (decodeSurface v { s with out := o }).raster ?_ ?_ (by rw [decodeSurface_eq])
    · exact ⟨hw.cls, hw.route, fun hn => absurd hi hn, hw.pixel, hw.pal, hw.apal, hw.texel, hw.diag⟩
    · have := rasterWritten_of_step (i := i) (RasterStep.decodeSurface v { s with out := o })
        (by simp only [List.mem_cons, List.not_mem_nil, or_false] at hi ⊢; tauto) hf
      exact ⟨this.only, this.form, this.inside, this.beyond⟩

theorem decodeStart_eq (s : State) :
    decodeStart s = { s with out := { s.out with cls := classOf s, route := .none, blocksDone := 0 } } := rfl

theorem ends_decode {s t : State} (h : execDecode s = .next t) : Ends .decode s t := by
  unfold execDecode at h
  have hw : ∀ (c : PixClass) (r : Route), MayWrite .decode s.out { s.out with cls := c, route := r, blocksDone := 0 } := by
    intro c r
    constructor <;> simp
  have hb : ∀ (c : PixClass) (r : Route), BeforeError .decode s.out { s.out with cls := c, route := r, blocksDone := 0 } := by
    intro c r
    simp [BeforeError]
  split at h
  · rename_i e he
    obtain rfl := Host.Outcome.next.inj h
    exact .error _ e (hw _ _) (hb _ _) (raisesError_checkClass s e he) rfl
  · split at h
    · unfold decodeCompressed at h
      split at h
      · obtain rfl := Host.Outcome.next.inj h
        exact .error _ _ (hw _ _) (hb _ _) (by simp) rfl
      · exact ends_decodeSurface (by simp) (hw _ _) (hb _ _) h
    · exact ends_unpackSurface (.inr rfl) (hw _ _) (hb _ _) h

/-- Everything a command can do. -/
theorem exec_ends {i : Instr} {s t : State} (h : exec i s = .next t) : Ends i s t := by
  cases i with
  | nop =>
    simp only [exec, execNop] at h
    exact ends_of_registers (i := .nop) h (by simp) rfl (.refl _ _) (by simp)
  | probe =>
    rcases endCommand_cases (show endCommand _ _ _ = _ from h) with ⟨e, he, rfl⟩ | ⟨-, rfl⟩
    · refine .error { s.out with cls := classOf s } e (by constructor <;> simp) (by simp [BeforeError]) ?_ rfl
      exact code_of_firstError (by simpa using raisesError_checkClass s) he
    · exact .complete { s.out with cls := classOf s } s.raster (by constructor <;> simp) (.refl _ _) rfl
  | decode => exact ends_decode h
  | decodeDxt1 => exact ends_decodeSurface (o := s.out) (by simp) (.refl _ _) (by simp [BeforeError]) h
  | decodeDxt3 => exact ends_decodeSurface (o := s.out) (by simp) (.refl _ _) (by simp [BeforeError]) h
  | decodeDxt5 => exact ends_decodeSurface (o := s.out) (by simp) (.refl _ _) (by simp [BeforeError]) h
  | blockDxt1 =>
    exact ends_of_registers (i := .blockDxt1) h (raisesError_blockChecks _ _) rfl
      (by constructor <;> simp [State.storeBlock]) (by simp)
  | blockDxt3 =>
    exact ends_of_registers (i := .blockDxt3) h (raisesError_blockChecks _ _) rfl
      (by constructor <;> simp [State.storeBlock]) (by simp)
  | blockDxt5 =>
    simp only [exec, execBlockDxt5] at h
    exact ends_of_registers (i := .blockDxt5) h (raisesError_blockChecks _ _) rfl
      (by constructor <;> simp [State.storeBlock, State.storeApal]) (by simp)
  | colorPalette =>
    simp only [exec, execColorPalette] at h
    exact ends_of_registers (i := .colorPalette) h (by simp) rfl (by constructor <;> simp) (by simp)
  | alphaPalette =>
    simp only [exec, execAlphaPalette] at h
    exact ends_of_registers (i := .alphaPalette) h (by simp) rfl (by constructor <;> simp [State.storeApal]) (by simp)
  | unpackRaw =>
    refine ends_of_registers (i := .unpackRaw) h ?_ rfl (by constructor <;> simp [unpackTo]) (by simp)
    intro c hc
    simp only [List.mem_cons, List.not_mem_nil, or_false] at hc
    rcases hc with rfl | rfl | rfl
    · exact raisesError_checkWidth _ _
    · exact raisesError_checkSrcLen _
    · exact raisesError_checkRead _ _ _
  | unpackPixel =>
    refine ends_of_registers (i := .unpackPixel) h ?_ rfl (by constructor <;> simp [unpackTo]) (by simp)
    intro c hc
    simp only [List.mem_cons, List.not_mem_nil, or_false] at hc
    rcases hc with rfl | rfl | rfl | rfl
    · exact raisesError_checkWidth _ _
    · exact raisesError_checkPixel _ _ _
    · exact raisesError_checkSrcLen _
    · exact raisesError_checkRead _ _ _
  | unpackSurface => exact ends_unpackSurface (o := s.out) (.inl rfl) (.refl _ _) (by simp [BeforeError]) h

/-- A command never stops the run: it ends, with or without an error. -/
theorem exec_next (i : Instr) (s : State) : ∃ t, exec i s = .next t := by
  cases i with
  | decode =>
    show ∃ t, execDecode s = .next t
    unfold execDecode
    split
    · exact ⟨_, rfl⟩
    · split
      · unfold decodeCompressed
        split
        · exact ⟨_, rfl⟩
        · exact endCommand_next _ _ _
      · exact endCommand_next _ _ _
  | nop => exact ⟨_, rfl⟩
  | colorPalette => exact ⟨_, rfl⟩
  | alphaPalette => exact ⟨_, rfl⟩
  | blockDxt5 => exact (endCommand_next _ _ _ : ∃ t, execBlockDxt5 s = .next t)
  | _ => exact endCommand_next _ _ _

end Sys2Proof.Machine
end

