-- ==== Sys2Proof/Laws/Unpack.lean ====
section
/-! SUPPORT. What the bit-unpacker's operations return, in the terms of the statements. -/

namespace Sys2Proof.Machine

/-- `ReadBits` returns the low `w` bits of the little-endian bytes (R130, R131). -/
theorem readBits_isSrcBits (s : State) (off : Nat) {w : Nat} (hw : w ≤ 64) : IsSrcBits s off w (readBits s off w) := by
  intro k
  rw [readBits, BitVec.getLsbD_ofNat, Nat.testBit_and, testBit_srcRead, Nat.testBit_two_pow_sub_one]
  by_cases h : k < w
  · rw [decide_eq_true h, decide_eq_true (show k < 64 by omega),
      decide_eq_true (show k < 8 * ceilDiv w 8 by unfold ceilDiv; omega)]
    simp
  · simp [h]

/-- The accumulator is determined by the bytes. -/
theorem IsSrcBits.unique {s : State} {off w : Nat} {a b : Acc} (ha : IsSrcBits s off w a) (hb : IsSrcBits s off w b) :
    a = b := BitVec.eq_of_getLsbD_eq fun k _ => by rw [ha k, hb k]

/-- `pack`, R15, as a number. -/
theorem pack_eq_wordOf (c : Color) : pack c = wordOf c.rgb.r.toNat c.rgb.g.toNat c.rgb.b.toNat c.a.toNat := by
  have h1 := c.rgb.r.isLt
  have h2 := c.rgb.g.isLt
  have h3 := c.rgb.b.isLt
  have h4 := c.a.isLt
  apply BitVec.eq_of_toNat_eq
  simp only [pack, wordOf, BitVec.toNat_append, BitVec.toNat_ofNat]
  rw [← Nat.shiftLeft_add_eq_or_of_lt h3, ← Nat.shiftLeft_add_eq_or_of_lt h2, ← Nat.shiftLeft_add_eq_or_of_lt h1]
  simp only [Nat.shiftLeft_eq]
  omega

/-- The trailing zeros of a mask that is not 0 (R16). -/
theorem ctz32_spec {m : Word} (h : m ≠ 0) :
    ctz32 m < 32 ∧ m.getLsbD (ctz32 m) = true ∧ ∀ j, j < ctz32 m → m.getLsbD j = false := by
  unfold ctz32
  cases hf : (List.range 32).find? (fun k => m.getLsbD k) with
  | none =>
    refine absurd (BitVec.eq_of_getLsbD_eq fun i hi => ?_) h
    have := List.find?_eq_none.mp hf i (List.mem_range.mpr hi)
    simpa using this
  | some z =>
    obtain ⟨h1, n, h2, h3, h4⟩ := List.find?_eq_some_iff_getElem.mp hf
    simp only [List.length_range] at h2
    simp only [List.getElem_range] at h3 h4
    subst h3
    refine ⟨h2, h1, fun j hj => ?_⟩
    simpa using h4 j hj

/-- Bit `k` of an extracted channel (R132). -/
theorem getLsbD_extract (acc : Acc) (m : Word) {k : Nat} (hk : k < 8) (hz : ctz32 m < 32) :
    (extract acc m).getLsbD k = (acc.getLsbD (k + ctz32 m) && m.getLsbD (k + ctz32 m)) := by
  unfold extract
  rw [BitVec.getLsbD_setWidth, BitVec.getLsbD_ushiftRight, BitVec.getLsbD_and, BitVec.getLsbD_setWidth,
    decide_eq_true hk, decide_eq_true (show ctz32 m + k < 64 by omega), Nat.add_comm k]
  simp

/-! ## Image geometry for whole-byte pixels (R102, R134) -/

theorem validBpp_bytes {n : Nat} (h1 : 1 ≤ n) (h2 : n ≤ 8) : validBpp (8 * n) = true := by
  simp only [validBpp, Bool.and_eq_true, beq_iff_eq, decide_eq_true_eq]
  omega

theorem validBpp_false {b : Nat} (h : ∀ n, 1 ≤ n → n ≤ 8 → b ≠ 8 * n) : validBpp b = false := by
  have := h (b / 8)
  simp only [validBpp, Bool.and_eq_false_iff, beq_eq_false_iff_ne, decide_eq_false_iff_not]
  omega

theorem pitch_bytes (w n : Nat) : pitch w (8 * n) = w * n := by
  have : w * (8 * n) = 8 * (w * n) := by ring
  unfold pitch ceilDiv
  omega

theorem pixelOffset_bytes (w n x y : Nat) : pixelOffset w (8 * n) x y = y * (w * n) + x * n := by
  rw [pixelOffset, pitch_bytes, stride, Nat.mul_div_cancel_left _ (by decide)]

/-- An error end, in the terms of the statements (60_exceptions.md R206). -/
theorem raise_eq_erredWith (s : State) (e : ErrCode) (a b : Nat) :
    s.raise ⟨e, a, b⟩ = erredWith s e (BitVec.ofNat 32 a) (BitVec.ofNat 32 b) := rfl

end Sys2Proof.Machine
end

