-- ==== Sys2Proof/Laws/Interp.lean ====
section
/-! SUPPORT. The interpolator and the block fields, compared with the spec's formulas as numbers. -/

namespace Sys2Proof.Machine

/-! ## The colour palette -/

theorem red565_eq (c : BitVec 16) : (expand565 c).r.toNat = red565 c.toNat := by
  simp only [expand565, red565, BitVec.toNat_ofNat, Nat.shiftRight_eq_div_pow, Nat.shiftLeft_eq]
  rw [show (0x1F : Nat) = 2 ^ 5 - 1 from rfl, Nat.and_two_pow_sub_one_eq_mod]
  omega

theorem green565_eq (c : BitVec 16) : (expand565 c).g.toNat = green565 c.toNat := by
  simp only [expand565, green565, BitVec.toNat_ofNat, Nat.shiftRight_eq_div_pow, Nat.shiftLeft_eq]
  rw [show (0x3F : Nat) = 2 ^ 6 - 1 from rfl, Nat.and_two_pow_sub_one_eq_mod]
  omega

theorem blue565_eq (c : BitVec 16) : (expand565 c).b.toNat = blue565 c.toNat := by
  simp only [expand565, blue565, BitVec.toNat_ofNat, Nat.shiftLeft_eq]
  rw [show (0x1F : Nat) = 2 ^ 5 - 1 from rfl, Nat.and_two_pow_sub_one_eq_mod]
  omega

/-- A weighted mean of two bytes is a byte, so nothing is cut off (R154). -/
theorem mix_lt {u0 u1 w0 w1 : Nat} (h0 : u0 < 256) (h1 : u1 < 256) (hw : 0 < w0 + w1) : mix u0 u1 w0 w1 < 256 := by
  unfold mix
  rw [Nat.div_lt_iff_lt_mul hw]
  have a : u0 * w0 ≤ 255 * w0 := Nat.mul_le_mul_right _ (by omega)
  have b : u1 * w1 ≤ 255 * w1 := Nat.mul_le_mul_right _ (by omega)
  omega

theorem pack_mixRgb (c0 c1 : BitVec 16) {w0 w1 : Nat} (hw : 0 < w0 + w1) :
    pack ⟨mixRgb (expand565 c0) (expand565 c1) w0 w1, 255⟩ = meanWord c0.toNat c1.toNat w0 w1 := by
  have f : ∀ a b : Byte, (BitVec.ofNat 8 (mix a.toNat b.toNat w0 w1)).toNat = mix a.toNat b.toNat w0 w1 :=
    fun a b => by rw [BitVec.toNat_ofNat, Nat.mod_eq_of_lt (mix_lt a.isLt b.isLt hw)]
  rw [pack_eq_wordOf]
  simp only [mixRgb, f]
  simp only [red565_eq, green565_eq, blue565_eq]
  rfl

theorem pack_expand565 (c : BitVec 16) :
    pack ⟨expand565 c, 255⟩ = wordOf (red565 c.toNat) (green565 c.toNat) (blue565 c.toNat) 255 := by
  rw [pack_eq_wordOf]
  simp only [red565_eq, green565_eq, blue565_eq]
  rfl

/-- Every entry of the colour palette, as a word (R150 to R154). -/
theorem pack_colorPalette (c0 c1 : BitVec 16) (k : Fin 4) :
    pack (colorPalette c0 c1)[k] = paletteWord c0.toNat c1.toNat k.val := by
  unfold colorPalette paletteWord
  split
  all_goals
    fin_cases k
    · exact pack_expand565 c0
    · exact pack_expand565 c1
  · exact pack_mixRgb c0 c1 (by decide)
  · exact pack_mixRgb c0 c1 (by decide)
  · exact pack_mixRgb c0 c1 (by decide)
  · exact (by decide : pack ⟨⟨0, 0, 0⟩, 0⟩ = 0)

theorem palWords_colorPalette (c0 c1 : BitVec 16) (k : Fin 4) :
    (palWords (colorPalette c0 c1))[k] = paletteWord c0.toNat c1.toNat k.val := by
  rw [← pack_colorPalette]
  simp [palWords]

/-! ## The alpha palette -/

theorem alphaStep7_eq (a0 a1 : Byte) {k : Nat} (h : 1 ≤ k) (h' : k ≤ 8) :
    (alphaStep7 a0 a1 k).toNat = ((8 - k) * a0.toNat + (k - 1) * a1.toNat) / 7 := by
  rw [alphaStep7, BitVec.toNat_ofNat, Nat.mod_eq_of_lt]
  rw [Nat.div_lt_iff_lt_mul (by decide)]
  have a : (8 - k) * a0.toNat ≤ (8 - k) * 255 := Nat.mul_le_mul_left _ (by omega)
  have b : (k - 1) * a1.toNat ≤ (k - 1) * 255 := Nat.mul_le_mul_left _ (by omega)
  omega

theorem alphaStep5_eq (a0 a1 : Byte) {k : Nat} (h : 1 ≤ k) (h' : k ≤ 6) :
    (alphaStep5 a0 a1 k).toNat = ((6 - k) * a0.toNat + (k - 1) * a1.toNat) / 5 := by
  rw [alphaStep5, BitVec.toNat_ofNat, Nat.mod_eq_of_lt]
  rw [Nat.div_lt_iff_lt_mul (by decide)]
  have a : (6 - k) * a0.toNat ≤ (6 - k) * 255 := Nat.mul_le_mul_left _ (by omega)
  have b : (k - 1) * a1.toNat ≤ (k - 1) * 255 := Nat.mul_le_mul_left _ (by omega)
  omega

/-- Every entry of the alpha palette (R155 to R157). -/
theorem toNat_alphaPalette (a0 a1 : Byte) (k : Fin 8) :
    (alphaPalette a0 a1)[k].toNat = alphaValue a0.toNat a1.toNat k.val := by
  unfold alphaPalette alphaValue
  split
  all_goals fin_cases k
  all_goals first
    | rfl
    | exact alphaStep7_eq a0 a1 (by decide) (by decide)
    | exact alphaStep5_eq a0 a1 (by decide) (by decide)

/-- The bytes of a word put together from four. -/
theorem byte_of_append (b3 b2 b1 b0 : Byte) :
    (b3 ++ b2 ++ b1 ++ b0).toNat % 256 = b0.toNat ∧ (b3 ++ b2 ++ b1 ++ b0).toNat / 256 % 256 = b1.toNat ∧
      (b3 ++ b2 ++ b1 ++ b0).toNat / 65536 % 256 = b2.toNat ∧ (b3 ++ b2 ++ b1 ++ b0).toNat / 16777216 % 256 = b3.toNat := by
  have h0 := b0.isLt
  have h1 := b1.isLt
  have h2 := b2.isLt
  have h3 := b3.isLt
  have e : (b3 ++ b2 ++ b1 ++ b0).toNat = b0.toNat + 256 * b1.toNat + 65536 * b2.toNat + 16777216 * b3.toNat := by
    simp only [BitVec.toNat_append]
    rw [← Nat.shiftLeft_add_eq_or_of_lt h2, ← Nat.shiftLeft_add_eq_or_of_lt h1, ← Nat.shiftLeft_add_eq_or_of_lt h0]
    simp only [Nat.shiftLeft_eq]
    omega
  rw [e]
  omega

/-- `APAL_LO` and `APAL_HI` hold the alpha palette byte by byte (R43). -/
theorem apalWords_alphaPalette (a0 a1 : Byte) (k : Nat) (hk : k < 4) :
    (apalLoWord (alphaPalette a0 a1)).toNat / 256 ^ k % 256 = alphaValue a0.toNat a1.toNat k ∧
      (apalHiWord (alphaPalette a0 a1)).toNat / 256 ^ k % 256 = alphaValue a0.toNat a1.toNat (4 + k) := by
  obtain ⟨l0, l1, l2, l3⟩ := byte_of_append (alphaPalette a0 a1)[3] (alphaPalette a0 a1)[2] (alphaPalette a0 a1)[1]
    (alphaPalette a0 a1)[0]
  obtain ⟨h0, h1, h2, h3⟩ := byte_of_append (alphaPalette a0 a1)[7] (alphaPalette a0 a1)[6] (alphaPalette a0 a1)[5]
    (alphaPalette a0 a1)[4]
  have f := toNat_alphaPalette a0 a1
  unfold apalLoWord apalHiWord
  obtain rfl | rfl | rfl | rfl : k = 0 ∨ k = 1 ∨ k = 2 ∨ k = 3 := by omega
  · exact ⟨by simpa using l0.trans (f 0), by simpa using h0.trans (f 4)⟩
  · exact ⟨by simpa using l1.trans (f 1), by simpa using h1.trans (f 5)⟩
  · exact ⟨by simpa using l2.trans (f 2), by simpa using h2.trans (f 6)⟩
  · exact ⟨by simpa using l3.trans (f 3), by simpa using h3.trans (f 7)⟩

/-! ## The fields of a block -/

/-- A bit of a little-endian field of SRC. -/
theorem getLsbD_srcField (s : State) (off n : Nat) {w k : Nat} (hw : w = 8 * n) (hk : k < w) :
    (srcField s off n w).getLsbD k = (s.srcByte (off + k / 8)).getLsbD (k % 8) := by
  rw [srcField, BitVec.getLsbD_ofNat, testBit_srcRead, decide_eq_true hk, decide_eq_true (hw ▸ hk)]
  simp

theorem toNat_srcField16 (s : State) (off : Nat) : (srcField s off 2 16).toNat = srcNat16 s off := by
  have h := srcRead_lt s off 2
  rw [srcField, BitVec.toNat_ofNat, Nat.mod_eq_of_lt (by simpa using h)]
  simp [State.srcRead, srcNat16, srcNat]

theorem toNat_srcField8 (s : State) (off : Nat) : (srcField s off 1 8).toNat = srcNat s off := by
  have h := srcRead_lt s off 1
  rw [srcField, BitVec.toNat_ofNat, Nat.mod_eq_of_lt (by simpa using h)]
  simp [State.srcRead, srcNat]

/-- A colour index is two bits of one index byte (R94). -/
theorem toNat_colorIndex (s : State) (off : Nat) {t : Nat} (ht : t < 16) :
    (colorIndex (srcField s off 4 32) t).toNat = srcNat s (off + t / 4) / 4 ^ (t % 4) % 4 := by
  have e : colorIndex (srcField s off 4 32) t = (s.srcByte (off + t / 4)).extractLsb' (2 * (t % 4)) 2 := by
    apply BitVec.eq_of_getLsbD_eq
    intro i hi
    rw [colorIndex, BitVec.getLsbD_extractLsb', BitVec.getLsbD_extractLsb', getLsbD_srcField s off 4 rfl (by omega),
      show (2 * t + i) / 8 = t / 4 by omega, show (2 * t + i) % 8 = 2 * (t % 4) + i by omega]
  rw [e, BitVec.extractLsb'_toNat, Nat.shiftRight_eq_div_pow, Nat.pow_mul]
  rfl

/-- An alpha nibble is half of one byte (R95). -/
theorem toNat_alphaNibble (s : State) (off : Nat) {t : Nat} (ht : t < 16) :
    (alphaNibble (srcField s off 8 64) t).toNat = srcNat s (off + t / 2) / 16 ^ (t % 2) % 16 := by
  have e : alphaNibble (srcField s off 8 64) t = (s.srcByte (off + t / 2)).extractLsb' (4 * (t % 2)) 4 := by
    apply BitVec.eq_of_getLsbD_eq
    intro i hi
    rw [alphaNibble, BitVec.getLsbD_extractLsb', BitVec.getLsbD_extractLsb', getLsbD_srcField s off 8 rfl (by omega),
      show (4 * t + i) / 8 = t / 2 by omega, show (4 * t + i) % 8 = 4 * (t % 2) + i by omega]
  rw [e, BitVec.extractLsb'_toNat, Nat.shiftRight_eq_div_pow, Nat.pow_mul]
  rfl

/-- An alpha code is three bits of the 48-bit index field (R96). -/
theorem toNat_alphaCode (s : State) (off : Nat) {t : Nat} (ht : t < 16) :
    (alphaCode (srcField s off 6 48) t).toNat =
      srcBit s off (3 * t) + 2 * srcBit s off (3 * t + 1) + 4 * srcBit s off (3 * t + 2) := by
  have h3 : ∀ c : BitVec 3, c.toNat = (c.getLsbD 0).toNat + 2 * (c.getLsbD 1).toNat + 4 * (c.getLsbD 2).toNat := by decide
  have b : ∀ i, i < 3 → (alphaCode (srcField s off 6 48) t).getLsbD i =
      (s.srcByte (off + (3 * t + i) / 8)).getLsbD ((3 * t + i) % 8) := by
    intro i hi
    rw [alphaCode, BitVec.getLsbD_extractLsb', decide_eq_true hi, Bool.true_and,
      getLsbD_srcField s off 6 rfl (by omega)]
  rw [h3, b 0 (by decide), b 1 (by decide), b 2 (by decide)]
  rfl

/-! ## Texels -/

theorem pack_palEntry (c0 c1 : BitVec 16) (i : BitVec 2) :
    pack (palEntry (colorPalette c0 c1) i) = paletteWord c0.toNat c1.toNat i.toNat :=
  pack_colorPalette c0 c1 ⟨i.toNat, i.isLt⟩

/-- Another alpha replaces bits 31:24 of the word. -/
theorem pack_withAlpha (c : Color) (a : Byte) :
    pack ⟨c.rgb, a⟩ = BitVec.ofNat 32 ((pack c).toNat % 2 ^ 24 + 2 ^ 24 * a.toNat) := by
  have h1 := c.rgb.r.isLt
  have h2 := c.rgb.g.isLt
  have h3 := c.rgb.b.isLt
  have h4 := c.a.isLt
  rw [pack_eq_wordOf, pack_eq_wordOf, wordOf, wordOf, BitVec.toNat_ofNat]
  congr 1
  dsimp only
  omega

theorem toNat_expandNibble (n : BitVec 4) : (expandNibble n).toNat = n.toNat * 17 := by
  have := n.isLt
  rw [expandNibble, BitVec.toNat_ofNat]
  omega

/-- Every texel of a block, as a word (R170 to R174). -/
theorem pack_blockTexels (v : Variant) (s : State) (off : Nat) (t : Fin 16) :
    pack (blockTexels v s off)[t] = texelWord v s off t.val := by
  cases v with
  | dxt1 =>
    simp only [blockTexels, decodeBlockDxt1, Fin.getElem_fin, tabulate_getElem, blockPalette, pack_palEntry, texelWord,
      texelColor, Variant.colorOffset, toNat_srcField16, Nat.add_zero]
    rw [toNat_colorIndex s (off + 4) t.isLt]
  | dxt3 =>
    simp only [blockTexels, decodeBlockDxt3, Fin.getElem_fin, tabulate_getElem, blockPalette, pack_withAlpha,
      pack_palEntry, texelWord, texelColor, Variant.colorOffset, toNat_srcField16, toNat_expandNibble, texelAlpha3]
    rw [toNat_colorIndex s (off + 12) t.isLt, toNat_alphaNibble s off t.isLt]
  | dxt5 =>
    have ha : ∀ k : BitVec 3, (apalEntry (blockAlphaPalette s off) k).toNat =
        alphaValue (srcNat s off) (srcNat s (off + 1)) k.toNat := by
      intro k
      have := toNat_alphaPalette (srcField s off 1 8) (srcField s (off + 1) 1 8) ⟨k.toNat, k.isLt⟩
      rw [toNat_srcField8, toNat_srcField8] at this
      exact this
    simp only [blockTexels, decodeBlockDxt5, Fin.getElem_fin, tabulate_getElem, blockPalette, pack_withAlpha,
      pack_palEntry, texelWord, texelColor, Variant.colorOffset, toNat_srcField16, texelAlpha5, ha]
    rw [toNat_colorIndex s (off + 12) t.isLt, toNat_alphaCode s (off + 2) t.isLt]

/-- The palette words of the block whose endpoints start at `off`. -/
theorem palWords_blockPalette (s : State) (off : Nat) (k : Fin 4) :
    (palWords (blockPalette s off))[k] = paletteWord (srcNat16 s off) (srcNat16 s (off + 2)) k.val := by
  rw [blockPalette, palWords_colorPalette, toNat_srcField16, toNat_srcField16]

/-- The alpha palette words of the DXT5 block at `off`. -/
theorem apalWords_blockAlphaPalette (s : State) (off k : Nat) (hk : k < 4) :
    (apalLoWord (blockAlphaPalette s off)).toNat / 256 ^ k % 256 = alphaValue (srcNat s off) (srcNat s (off + 1)) k ∧
      (apalHiWord (blockAlphaPalette s off)).toNat / 256 ^ k % 256 =
        alphaValue (srcNat s off) (srcNat s (off + 1)) (4 + k) := by
  rw [blockAlphaPalette, ← toNat_srcField8, ← toNat_srcField8]
  exact apalWords_alphaPalette _ _ k hk

end Sys2Proof.Machine
end

