-- ==== Sys2Proof/Laws/Surface.lean ====
section
/-! SUPPORT. The block loop of `DecodeSurface(v)` in closed form (43_dxt.md R179, R180, R184, R185). -/

namespace Sys2Proof.Machine

/-- The texels of a block depend on SRC alone. -/
theorem blockTexels_congr {s t : State} (h : s.srcByte = t.srcByte) (v : Variant) (off : Nat) :
    blockTexels v s off = blockTexels v t off := by
  have hr : ∀ off n, s.srcRead off n = t.srcRead off n := fun off n => srcRead_congr fun i _ _ => congrFun h i
  cases v <;> simp [blockTexels, decodeBlockDxt1, decodeBlockDxt3, decodeBlockDxt5, blockPalette, blockAlphaPalette,
    srcField, hr]

theorem Variant.blockSize_pos (v : Variant) : 0 < v.blockSize := by cases v <;> decide

/-- Block number `k` is block column `x / 4` of block row `y / 4`. -/
theorem block_unique {s : State} {k x y : Nat} (hx : x < s.w) :
    (x / 4 = k % gridWidth s ∧ y / 4 = k / gridWidth s) ↔ k = y / 4 * gridWidth s + x / 4 := by
  have hg : x / 4 < gridWidth s := by unfold gridWidth ceilDiv; omega
  constructor
  · rintro ⟨h1, h2⟩
    rw [h1, h2, Nat.mul_comm, Nat.div_add_mod]
  · rintro rfl
    rw [Nat.mul_comm (y / 4), Nat.mul_add_mod, Nat.mod_eq_of_lt hg, Nat.mul_add_div (by omega), Nat.div_eq_of_lt hg]
    simp

/-- What the block loop leaves in a pixel of the image: its block's texel if the loop reached a whole block there. -/
theorem rasterWord_decodeBlocks (v : Variant) (n k : Nat) (s : State) {x y : Nat} (hx : x < s.w) (hy : y < s.h) :
    (decodeBlocks v n k s).rasterWord (y * s.w + x) =
      if k ≤ y / 4 * gridWidth s + x / 4 ∧ y / 4 * gridWidth s + x / 4 < k + n ∧
          (y / 4 * gridWidth s + x / 4 + 1) * v.blockSize ≤ s.inp.srcLen.toNat then
        texelWord v s ((y / 4 * gridWidth s + x / 4) * v.blockSize) (4 * (y % 4) + x % 4)
      else s.rasterWord (y * s.w + x) := by
  induction n generalizing k s with
  | zero =>
    rw [if_neg (by omega)]
    rfl
  | succ n ih =>
    simp only [decodeBlocks]
    by_cases hlen : k * v.blockSize + v.blockSize > s.inp.srcLen.toNat
    · rw [if_pos hlen, if_neg]
      rintro ⟨h1, -, h3⟩
      have : (k + 1) * v.blockSize ≤ (y / 4 * gridWidth s + x / 4 + 1) * v.blockSize := Nat.mul_le_mul_right _ (by omega)
      rw [Nat.add_mul, Nat.one_mul] at this
      omega
    · rw [if_neg hlen]
      have hgw : ∀ bx by' tex m, gridWidth ((writeBlock bx by' tex s).setBlocksDone m) = gridWidth s := by
        intro bx by' tex m
        simp [gridWidth, State.w]
      have hw : ∀ bx by' tex m, ((writeBlock bx by' tex s).setBlocksDone m).w = s.w := by
        intro bx by' tex m
        simp [State.w]
      have hh : ∀ bx by' tex m, ((writeBlock bx by' tex s).setBlocksDone m).h = s.h := by
        intro bx by' tex m
        simp [State.h]
      have hsrc : ∀ bx by' tex m, ((writeBlock bx by' tex s).setBlocksDone m).srcByte = s.srcByte := by
        intro bx by' tex m
        exact srcByte_congr (by simp) (by simp)
      have htex : ∀ bx by' tex m o t, texelWord v ((writeBlock bx by' tex s).setBlocksDone m) o t = texelWord v s o t := by
        intro bx by' tex m o t
        have := hsrc bx by' tex m
        cases v <;> simp [texelWord, texelColor, texelAlpha3, texelAlpha5, srcNat16, srcNat, srcBit, this]
      have hih := ih (k + 1) ((writeBlock (k % gridWidth s) (k / gridWidth s) (blockTexels v s (k * v.blockSize)) s).setBlocksDone (k + 1))
        (by rw [hw]; exact hx) (by rw [hh]; exact hy)
      rw [hw, hgw, htex] at hih
      rw [hih]
      have hwb := rasterWord_writeBlock (k % gridWidth s) (k / gridWidth s) (blockTexels v s (k * v.blockSize)) s hx hy
      have hset : ∀ (u : State) m q, (u.setBlocksDone m).rasterWord q = u.rasterWord q := fun _ _ _ => rfl
      rw [hset, hwb, State.setBlocksDone_inp, writeBlock_inp]
      by_cases hb : k = y / 4 * gridWidth s + x / 4
      · rw [if_neg (by omega), if_pos ((block_unique hx).mpr hb), if_pos]
        · have := pack_blockTexels v s (k * v.blockSize) ⟨4 * (y % 4) + x % 4, by omega⟩
          rw [← hb]
          exact this
        · refine ⟨by omega, by omega, ?_⟩
          rw [← hb, Nat.add_mul, Nat.one_mul]
          omega
      · rw [if_neg (fun h => hb ((block_unique hx).mp h))]
        by_cases hc : k + 1 ≤ y / 4 * gridWidth s + x / 4 ∧ y / 4 * gridWidth s + x / 4 < k + 1 + n ∧
            (y / 4 * gridWidth s + x / 4 + 1) * v.blockSize ≤ s.inp.srcLen.toNat
        · rw [if_pos hc, if_pos ⟨by omega, by omega, hc.2.2⟩]
        · rw [if_neg hc, if_neg]
          rintro ⟨h1, h2, h3⟩
          exact hc ⟨by omega, by omega, h3⟩

/-- `BLOCKS_DONE` after the loop (R180): the number of blocks decoded. -/
theorem blocksDone_decodeBlocks (v : Variant) (n k : Nat) (s : State) (h : s.out.blocksDone = BitVec.ofNat 32 k) :
    (decodeBlocks v n k s).out.blocksDone = BitVec.ofNat 32 (k + min n (s.inp.srcLen.toNat / v.blockSize - k)) := by
  have hp := v.blockSize_pos
  induction n generalizing k s with
  | zero => simpa [decodeBlocks] using h
  | succ n ih =>
    simp only [decodeBlocks]
    have hle : k + 1 ≤ s.inp.srcLen.toNat / v.blockSize ↔ k * v.blockSize + v.blockSize ≤ s.inp.srcLen.toNat := by
      rw [Nat.le_div_iff_mul_le hp, Nat.add_mul, Nat.one_mul]
    by_cases hlen : k * v.blockSize + v.blockSize > s.inp.srcLen.toNat
    · rw [if_pos hlen, h]
      congr 1
      omega
    · rw [if_neg hlen, ih _ _ rfl, State.setBlocksDone_inp, writeBlock_inp]
      congr 1
      omega

end Sys2Proof.Machine
end

