-- ==== Sys2Proof/Laws/Congr.lean ====
section
/-! SUPPORT. What a command reads (30_encoding.md R84, 20_memory.md R69): its shared parts give the same result in two
states that agree on their inputs. -/

namespace Sys2Proof.Machine

theorem SameSrc.srcRead {s t : State} (h : SameSrc s t) {off n : Nat} (hb : off + n ≤ s.inp.srcLen.toNat) :
    s.srcRead off n = t.srcRead off n := srcRead_congr fun i _ h2 => h.2 i (by omega)

/-- A whole block below `SRC_LEN` decodes alike. -/
theorem SameSrc.srcField {s t : State} (h : SameSrc s t) {off n : Nat} (k : Nat) (hb : off + n ≤ s.inp.srcLen.toNat) :
    srcField s off n k = srcField t off n k := by
  unfold Machine.srcField
  rw [h.srcRead hb]

theorem SameSrc.decodeBlockDxt1 {s t : State} (h : SameSrc s t) {off : Nat} (hb : off + 8 ≤ s.inp.srcLen.toNat) :
    decodeBlockDxt1 s off = decodeBlockDxt1 t off := by
  simp only [Machine.decodeBlockDxt1, blockPalette, h.srcField 16 (show off + 2 ≤ _ by omega),
    h.srcField 16 (show off + 2 + 2 ≤ _ by omega), h.srcField 32 (show off + 4 + 4 ≤ _ by omega)]

theorem SameSrc.decodeBlockDxt3 {s t : State} (h : SameSrc s t) {off : Nat} (hb : off + 16 ≤ s.inp.srcLen.toNat) :
    decodeBlockDxt3 s off = decodeBlockDxt3 t off := by
  simp only [Machine.decodeBlockDxt3, blockPalette, h.srcField 64 (show off + 8 ≤ _ by omega),
    h.srcField 16 (show off + 8 + 2 ≤ _ by omega), h.srcField 16 (show off + 8 + 2 + 2 ≤ _ by omega),
    h.srcField 32 (show off + 12 + 4 ≤ _ by omega)]

theorem SameSrc.decodeBlockDxt5 {s t : State} (h : SameSrc s t) {off : Nat} (hb : off + 16 ≤ s.inp.srcLen.toNat) :
    decodeBlockDxt5 s off = decodeBlockDxt5 t off := by
  simp only [Machine.decodeBlockDxt5, blockAlphaPalette, blockPalette, h.srcField 8 (show off + 1 ≤ _ by omega),
    h.srcField 8 (show off + 1 + 1 ≤ _ by omega), h.srcField 48 (show off + 2 + 6 ≤ _ by omega),
    h.srcField 16 (show off + 8 + 2 ≤ _ by omega), h.srcField 16 (show off + 8 + 2 + 2 ≤ _ by omega),
    h.srcField 32 (show off + 12 + 4 ≤ _ by omega)]

theorem SameSrc.blockTexels {s t : State} (h : SameSrc s t) (v : Variant) {off : Nat}
    (hb : off + v.blockSize ≤ s.inp.srcLen.toNat) : blockTexels v s off = blockTexels v t off := by
  cases v
  · exact congrArg Prod.fst (h.decodeBlockDxt1 hb)
  · exact congrArg Prod.fst (h.decodeBlockDxt3 hb)
  · exact congrArg Prod.fst (h.decodeBlockDxt5 hb)

/-- Pixel writes depend on the image's size and the raster alone. -/
theorem rasterWrite_congr {s t : State} (hs : SameSize s t) (hr : s.raster = t.raster) (x y : Nat) (v : Word) :
    (s.rasterWrite x y v).raster = (t.rasterWrite x y v).raster := by
  have hw : s.w = t.w := by simp only [State.w, hs.1]
  have hh : s.h = t.h := by simp only [State.h, hs.2]
  rw [State.rasterWrite_raster, State.rasterWrite_raster, hw, hh, hr]

/-- A list of pixel writes, pixel by pixel the same, leaves the same raster. -/
theorem foldl_rasterWrite_congr {α : Type} (l : List α) (x y x' y' : α → Nat) (f g : α → Word)
    (hfg : ∀ a ∈ l, x a = x' a ∧ y a = y' a ∧ f a = g a) {s t : State} (hs : SameSize s t) (hr : s.raster = t.raster) :
    (l.foldl (fun u a => u.rasterWrite (x a) (y a) (f a)) s).raster =
      (l.foldl (fun u a => u.rasterWrite (x' a) (y' a) (g a)) t).raster := by
  induction l generalizing s t with
  | nil => exact hr
  | cons a l ih =>
    obtain ⟨h1, h2, h3⟩ := hfg a List.mem_cons_self
    rw [List.foldl_cons, List.foldl_cons, h1, h2, h3]
    refine ih (fun a ha => hfg a (List.mem_cons_of_mem _ ha)) ?_ (rasterWrite_congr hs hr _ _ _)
    rw [SameSize, State.rasterWrite_inp, State.rasterWrite_inp]
    exact hs

theorem writeBlock_congr {s t : State} (hs : SameSize s t) (hr : s.raster = t.raster) (bx by' : Nat)
    (tex : Vector Color 16) : (writeBlock bx by' tex s).raster = (writeBlock bx by' tex t).raster :=
  foldl_rasterWrite_congr _ _ _ _ _ _ _ (fun _ _ => ⟨rfl, rfl, rfl⟩) hs hr

theorem SameSrc.of_eq {s t s' t' : State} (h : SameSrc s t) (h1 : s'.inp = s.inp) (h2 : t'.inp = t.inp)
    (h3 : s'.srcByte = s.srcByte) (h4 : t'.srcByte = t.srcByte) : SameSrc s' t' := by
  rw [SameSrc, h1, h2, h3, h4]
  exact h

theorem decodeBlocks_congr (v : Variant) (n k : Nat) {s t : State} (hs : SameSize s t) (hr : s.raster = t.raster)
    (hb : s.out.blocksDone = t.out.blocksDone) (h : SameSrc s t) :
    (decodeBlocks v n k s).raster = (decodeBlocks v n k t).raster ∧
      (decodeBlocks v n k s).out.blocksDone = (decodeBlocks v n k t).out.blocksDone := by
  induction n generalizing k s t with
  | zero => exact ⟨hr, hb⟩
  | succ n ih =>
    have hg : gridWidth s = gridWidth t := by simp only [gridWidth, State.w, hs.1]
    have hlen : s.inp.srcLen = t.inp.srcLen := h.1
    simp only [decodeBlocks]
    by_cases hc : k * v.blockSize + v.blockSize > s.inp.srcLen.toNat
    · rw [if_pos hc, if_pos (hlen ▸ hc)]
      exact ⟨hr, hb⟩
    · rw [if_neg hc, if_neg (hlen ▸ hc), h.blockTexels v (Nat.le_of_not_lt hc), hg]
      have hset : ∀ (u u' : State) m, (u.setBlocksDone m).out.blocksDone = (u'.setBlocksDone m).out.blocksDone :=
        fun _ _ _ => rfl
      refine ih (k + 1) ?_ ?_ (hset _ _ _) ?_
      · rw [SameSize, State.setBlocksDone_inp, State.setBlocksDone_inp, writeBlock_inp, writeBlock_inp]
        exact hs
      · rw [State.setBlocksDone_raster, State.setBlocksDone_raster]
        exact writeBlock_congr hs hr _ _ _
      · exact h.of_eq (by simp) (by simp) (srcByte_congr (by simp) (by simp)) (srcByte_congr (by simp) (by simp))

theorem decodeSurface_congr (v : Variant) {s t : State} (hs : SameSize s t) (hr : s.raster = t.raster) (h : SameSrc s t) :
    (decodeSurface v s).raster = (decodeSurface v t).raster ∧
      (decodeSurface v s).out.blocksDone = (decodeSurface v t).out.blocksDone := by
  have hg : gridWidth s * gridHeight s = gridWidth t * gridHeight t := by
    simp only [gridWidth, gridHeight, State.w, State.h, hs.1, hs.2]
  unfold decodeSurface
  rw [hg]
  refine decodeBlocks_congr v _ 0 hs ?_ rfl h
  simp only [State.setBlocksDone_raster, State.rasterClear_raster, State.w, State.h, hs.1, hs.2, hr]

/-- The pixel unpacked from bits below `SRC_LEN`. -/
theorem unpack_congr {s t : State} (h : SameSrc s t) (hm : SameMasks s t) {off w : Nat}
    (hb : off + ceilDiv w 8 ≤ s.inp.srcLen.toNat) :
    readBits s off w = readBits t off w ∧ unpackColor s (readBits s off w) = unpackColor t (readBits t off w) := by
  have hr : readBits s off w = readBits t off w := by
    unfold readBits
    rw [h.srcRead hb]
  refine ⟨hr, ?_⟩
  rw [hr]
  simp only [unpackColor, hm.1, hm.2.1, hm.2.2.1, hm.2.2.2]

/-- UNPACK_SURFACE's loop, once its payload check has passed. -/
theorem unpackSurface_congr {s t : State} (hs : SameSize s t) (hr : s.raster = t.raster)
    (hb : s.inp.rgbBitCount = t.inp.rgbBitCount) (hm : SameMasks s t) (h : SameSrc s t) {n : Nat}
    (hn : s.inp.rgbBitCount.toNat = 8 * n) (hp : s.w * n * s.h ≤ s.inp.srcLen.toNat) :
    (unpackSurface s).raster = (unpackSurface t).raster := by
  have hw : s.w = t.w := by simp only [State.w, hs.1]
  have hh : s.h = t.h := by simp only [State.h, hs.2]
  unfold unpackSurface
  rw [← hw, ← hh]
  refine foldl_rasterWrite_congr _ _ _ _ _ _ _ (fun p hp' => ⟨rfl, rfl, ?_⟩) hs hr
  obtain ⟨h1, h2, -⟩ := pixel_col_row (List.mem_range.mp hp')
  unfold surfacePixel
  rw [← hb, ← hw, hn, pixelOffset_bytes]
  refine congrArg pack (unpack_congr h hm ?_).2
  have e : ceilDiv (8 * n) 8 = n := by unfold ceilDiv; omega
  have h3 : (p / s.w + 1) * (s.w * n) ≤ s.h * (s.w * n) := Nat.mul_le_mul_right _ h2
  have h4 : (p % s.w + 1) * n ≤ s.w * n := Nat.mul_le_mul_right _ h1
  have h5 : s.h * (s.w * n) = s.w * n * s.h := by ring
  rw [Nat.add_mul, Nat.one_mul] at h3 h4
  omega

/-- Two outcomes, from `s` and from `t`, that end the same way: the same registers and raster, and the same end of
`STATUS` (R205, R206). -/
def SameEnd (s t : State) (o o' : Out) : Prop :=
  ∃ u u', o = .next u ∧ o' = .next u' ∧ u.out = u'.out ∧ u.raster = u'.raster ∧ u.pending = none ∧ u'.pending = none ∧
    ∃ f : Status → Status, (f = Status.complete ∨ ∃ e, f = Status.error e) ∧ u.status = f s.status ∧ u'.status = f t.status

/-- Two runs of one command's frame, with the same checks. -/
theorem endCommand_congr {s t : State} {l l' : List (Option CmdError)} {f g : State → State} (ho : s.out = t.out)
    (hr : s.raster = t.raster) (hl : l = l') (hf : (f s).status = s.status) (hg : (g t).status = t.status)
    (hfg : firstError l = none → (f s).out = (g t).out ∧ (f s).raster = (g t).raster) :
    SameEnd s t (endCommand s l f) (endCommand t l' g) := by
  subst hl
  cases he : firstError l with
  | none =>
    obtain ⟨h1, h2⟩ := hfg he
    exact ⟨_, _, endCommand_pass he, endCommand_pass he, h1, h2, rfl, rfl, Status.complete, .inl rfl,
      congrArg Status.complete hf, congrArg Status.complete hg⟩
  | some e =>
    refine ⟨_, _, endCommand_fail he, endCommand_fail he, ?_, hr, rfl, rfl, Status.error e.code, .inr ⟨_, rfl⟩, rfl, rfl⟩
    rw [State.raise_out, State.raise_out, ho]

/-! ## Checks -/

theorem checkSrcLen_congr {s t : State} (hp : s.params = t.params) (h : s.inp.srcLen = t.inp.srcLen) :
    checkSrcLen s = checkSrcLen t := by simp only [checkSrcLen, hp, h]

theorem checkRead_congr {s t : State} (h : s.inp.srcLen = t.inp.srcLen) (off n : Nat) :
    checkRead s off n = checkRead t off n := by simp only [checkRead, h]

theorem checkPixel_congr {s t : State} (h : SameSize s t) (x y : Nat) : checkPixel s x y = checkPixel t x y := by
  unfold checkPixel
  rw [show s.w = t.w by simp only [State.w, h.1], show s.h = t.h by simp only [State.h, h.2]]

theorem checkRaster_congr {s t : State} (hp : s.params = t.params) (h : SameSize s t) : checkRaster s = checkRaster t := by
  unfold checkRaster
  rw [show s.w = t.w by simp only [State.w, h.1], show s.h = t.h by simp only [State.h, h.2], hp]

theorem checkPayload_congr {s t : State} (hb : s.inp.rgbBitCount = t.inp.rgbBitCount) (hl : s.inp.srcLen = t.inp.srcLen)
    (h : SameSize s t) : checkPayload s = checkPayload t := by
  unfold checkPayload
  rw [show s.w = t.w by simp only [State.w, h.1], show s.h = t.h by simp only [State.h, h.2], hb, hl]

/-- A check list that passes bounds the read it holds. -/
theorem read_le_of_checks {s : State} {l : List (Option CmdError)} {off n : Nat} (h : firstError l = none)
    (hm : checkRead s off n ∈ l) : off + n ≤ s.inp.srcLen.toNat := by
  have := firstError_eq_none.mp h _ hm
  simpa [checkRead] using this

end Sys2Proof.Machine
end

