-- ==== Sys2Proof/Laws/HostBus.lean ====
section
/-! SUPPORT. The register map as a bijection, the windows, and everything a host step can do. -/

namespace Sys2Proof.Machine

/-! ## The register map (10_state.md R22) -/

theorem Reg.mem_all (r : Reg) : r ∈ Reg.all := by
  cases r with
  | pal k => revert k; decide
  | texel t => revert t; decide
  | _ => decide

theorem Reg.ofOffset_offset (r : Reg) : Reg.ofOffset r.offset = some r := by
  cases r with
  | pal k => revert k; decide
  | texel t => revert t; decide
  | _ => decide

theorem Reg.offset_of_ofOffset {off : Nat} {r : Reg} (h : Reg.ofOffset off = some r) : r.offset = off := by
  simpa using List.find?_some h

theorem Reg.offset_lt (r : Reg) : r.offset < 0xC0 := by
  cases r <;> simp only [Reg.offset] <;> omega

theorem Reg.ofOffset_reserved {off : Nat} (h : 0xC0 ≤ off) : Reg.ofOffset off = none := by
  cases hr : Reg.ofOffset off with
  | none => rfl
  | some r =>
    have h1 := Reg.offset_of_ofOffset hr
    have h2 := r.offset_lt
    omega

@[simp] theorem State.readOffset_offset (s : State) (r : Reg) :
    s.readOffset r.offset = if s.status.busy && r.cl == .ro then .anyValue else .stored (s.readReg r) := by
  simp [State.readOffset, Reg.ofOffset_offset]

@[simp] theorem State.writeOffset_offset (s : State) (r : Reg) (v : Word) : s.writeOffset r.offset v = s.writeReg r v := by
  simp [State.writeOffset, Reg.ofOffset_offset]

/-! ## Windows (20_memory.md R61 to R67) -/

theorem windowOf_reg (p : Params) {a : Nat} (h : a < 0x1000) : windowOf p a = some (.reg a) := by simp [windowOf, h]

theorem windowOf_src (p : Params) {i : Nat} (h : i < p.srcBytes) : windowOf p (0x01000000 + i) = some (.src i) := by
  unfold windowOf srcBase
  rw [if_neg (by omega), if_pos (by omega), Nat.add_sub_cancel_left]

theorem windowOf_raster (p : Params) {i : Nat} (hp : p.srcBytes ≤ 2 ^ 24) (h : i < 4 * p.rasterPixels) :
    windowOf p (0x10000000 + i) = some (.raster i) := by
  unfold windowOf srcBase rasterBase
  rw [if_neg (by omega), if_neg (by omega), if_pos (by omega), Nat.add_sub_cancel_left]

theorem windowOf_unmapped (p : Params) {a : Nat} (h1 : 0x1000 ≤ a)
    (h2 : ¬ (0x01000000 ≤ a ∧ a < 0x01000000 + p.srcBytes))
    (h3 : ¬ (0x10000000 ≤ a ∧ a < 0x10000000 + 4 * p.rasterPixels)) : windowOf p a = none := by
  unfold windowOf srcBase rasterBase
  rw [if_neg (by omega), if_neg h2, if_neg h3]

theorem window32_reg (p : Params) {a : Word} (h : a.toNat < 0x1000) (h4 : a.toNat % 4 = 0) :
    window32 p a = .ok (.reg a.toNat) := by simp [window32, windowOf_reg p h, h4]

theorem window32_src {p : Params} {a : Word} {i : Nat} (ha : a.toNat = 0x01000000 + i) (h : i + 4 ≤ p.srcBytes)
    (h4 : i % 4 = 0) : window32 p a = .ok (.src i) := by
  unfold window32
  rw [ha, windowOf_src p (by omega)]
  simp only [if_neg (show ¬ (0x01000000 + i) % 4 ≠ 0 by omega), if_pos h]

theorem window32_raster {p : Params} {a : Word} {i : Nat} (hp : p.srcBytes ≤ 2 ^ 24) (ha : a.toNat = 0x10000000 + i)
    (h : i < 4 * p.rasterPixels) (h4 : i % 4 = 0) : window32 p a = .ok (.raster i) := by
  unfold window32
  rw [ha, windowOf_raster p hp h]
  simp only [if_neg (show ¬ (0x10000000 + i) % 4 ≠ 0 by omega)]

theorem window8_src {p : Params} {a : Word} {i : Nat} (ha : a.toNat = 0x01000000 + i) (h : i < p.srcBytes) :
    window8 p a = .ok (.src i) := by
  unfold window8
  rw [ha, windowOf_src p h]

theorem window8_raster {p : Params} {a : Word} {i : Nat} (hp : p.srcBytes ≤ 2 ^ 24) (ha : a.toNat = 0x10000000 + i)
    (h : i < 4 * p.rasterPixels) : window8 p a = .ok (.raster i) := by
  unfold window8
  rw [ha, windowOf_raster p hp h]

/-- R7, R8: the bounds a well-formed parameter set keeps. -/
theorem params_bounds {p : Params} (h : p.wf = true) :
    16 ≤ p.srcBytes ∧ p.srcBytes ≤ 2 ^ 24 ∧ 1 ≤ p.rasterPixels ∧ p.rasterPixels ≤ 2 ^ 26 := by
  simpa [Params.wf, and_assoc] using h

theorem Reg.offset_aligned (r : Reg) : r.offset % 4 = 0 := by cases r <;> simp [Reg.offset]

theorem Reg.offset_toNat (r : Reg) : (BitVec.ofNat 32 r.offset).toNat = r.offset := by
  have h := r.offset_lt
  rw [BitVec.toNat_ofNat]
  omega

/-- A 32-bit host write to a register. -/
theorem hostStep_wr_reg (s : State) (r : Reg) (v : Word) :
    hostStep (.wr (BitVec.ofNat 32 r.offset) v) s = .next (s.writeReg r v) := by
  have h := r.offset_lt
  have h1 := r.offset_toNat
  have h4 := r.offset_aligned
  simp [hostStep, window32_reg s.params (a := BitVec.ofNat 32 r.offset) (by omega) (by omega), State.write32, h1]

/-- A 32-bit host read of a register offset. -/
theorem hostStep_rd_reg (s : State) (a : Word) (h : a.toNat < 0x1000) (h4 : a.toNat % 4 = 0) :
    hostStep (.rd a) s = .next (s.observeValue a 0xFFFFFFFF (s.readOffset a.toNat)) := by
  simp only [hostStep, window32_reg s.params h h4, State.read32]

/-- `CTRL` reads back its two defined bits. -/
theorem Ctrl.word_ofWord (v : Word) : (Ctrl.ofWord v).word = v &&& 3#32 := by
  have h1 : ∀ b1 b0, (Ctrl.word ⟨b0, b1⟩).toNat = 2 * b1.toNat + b0.toNat := by decide
  apply BitVec.eq_of_toNat_eq
  rw [Ctrl.ofWord, h1, BitVec.toNat_and, show (3#32).toNat = 2 ^ 2 - 1 from rfl, Nat.and_two_pow_sub_one_eq_mod]
  simp only [BitVec.getLsbD, Nat.toNat_testBit]
  omega

/-- Where a 32-bit access of SRC or RASTER goes lies inside the memory. -/
theorem window32_inside {p : Params} {a : Word} {win : Window} (h : window32 p a = .ok win) :
    (∀ i, win = .src i → i + 4 ≤ p.srcBytes) := by
  intro i hi
  subst hi
  unfold window32 at h
  split at h
  · cases h
  · split at h
    · cases h
    · split at h
      · split at h
        · cases h; assumption
        · cases h
      all_goals cases h

theorem window8_inside {p : Params} {a : Word} {win : Window} (h : window8 p a = .ok win) :
    (∀ i, win = .src i → i < p.srcBytes) := by
  intro i hi
  subst hi
  unfold window8 at h
  split at h
  · cases h
  · cases h
  · rename_i w hw hwin
    cases h
    unfold windowOf at hwin
    split at hwin
    · cases hwin
    · split at hwin
      · simp only [Option.some.injEq, Window.src.injEq] at hwin
        omega
      · split at hwin <;> cases hwin

/-! ## What a host step can do -/

/-- What a write by the host can do to the block. -/
inductive WriteEffect (s : State) : State → Prop where
  /-- R22, R63: ignored. -/
  | ignored : WriteEffect s s
  /-- R46, R75: ignored because the block is busy. -/
  | wign (h : s.status.busy = true) : WriteEffect s s.ignoreWrite
  /-- An `RW` register is written. -/
  | input (h : s.status.busy = false) (inp : Inputs) : WriteEffect s { s with inp := inp }
  /-- R25: a command starts. -/
  | start (h : s.status.busy = false) (v : Word) : WriteEffect s (s.startCommand v)
  /-- R27. -/
  | clear (v : Word) : WriteEffect s { s with status := s.status.writeOneToClear v }
  /-- R62. -/
  | srcByte (h : s.status.busy = false) (i : Nat) (hi : i < s.params.srcBytes) (b : Byte) : WriteEffect s (s.setSrcByte i b)
  | srcWord (h : s.status.busy = false) (i : Nat) (hi : i + 4 ≤ s.params.srcBytes) (v : Word) :
      WriteEffect s (s.setSrcWord i v)

theorem writeReg_effect (s : State) (r : Reg) (v : Word) : WriteEffect s (s.writeReg r v) := by
  unfold State.writeReg
  split
  · split
    · exact .wign ‹_›
    · exact .input (by simp_all) _
  · split
    · exact .wign ‹_›
    · exact .start (by simp_all) v
  · exact .clear v
  · exact .ignored
  · exact .ignored

theorem write32_effect {s : State} {win : Window} (v : Word) (h : ∀ i, win = .src i → i + 4 ≤ s.params.srcBytes) :
    WriteEffect s (s.write32 win v) := by
  cases win with
  | reg off =>
    simp only [State.write32, State.writeOffset]
    split
    · exact .ignored
    · exact writeReg_effect _ _ _
  | src i =>
    simp only [State.write32]
    split
    · exact .wign ‹_›
    · exact .srcWord (by simp_all) i (h i rfl) v
  | raster i => exact .ignored

theorem write8_effect {s : State} {win : Window} (b : Byte) (h : ∀ i, win = .src i → i < s.params.srcBytes) :
    WriteEffect s (s.write8 win b) := by
  cases win with
  | reg off => exact .ignored
  | src i =>
    simp only [State.write8]
    split
    · exact .wign ‹_›
    · exact .srcByte (by simp_all) i (h i rfl) b
  | raster i => exact .ignored

/-- Two states that differ in the model's own part alone, with the same reset number and schedule. -/
structure SameBlock (s t : State) : Prop where
  block : t = { s with env := t.env }
  epoch : t.env.epoch = s.env.epoch
  schedule : t.env.schedule = s.env.schedule

theorem SameBlock.refl (s : State) : SameBlock s s := ⟨rfl, rfl, rfl⟩

theorem observeValue_sameBlock (s : State) (a m : Word) (v : ReadValue) : SameBlock s (s.observeValue a m v) := by
  cases v <;> exact ⟨rfl, rfl, rfl⟩

/-- Everything a host step can do, and which operation can do it. -/
inductive HostEffect (op : HostOp) (s : State) : State → Prop where
  | read (t : State) (hop : (∃ a, op = .rd a) ∨ ∃ a, op = .rdb a) (h : SameBlock s t) (hs : t.env.script = s.env.script) :
      HostEffect op s t
  | waitDone (hop : op = .wait) (h : s.status.done = true) : HostEffect op s (s.observe 0x00C s.status.word)
  | waitAgain (hop : op = .wait) (h : s.status.done = false) :
      HostEffect op s ((s.observe 0x00C s.status.word).repeatOp .wait)
  | write (t : State) (hop : (∃ a v, op = .wr a v) ∨ ∃ a b, op = .wrb a b) (h : WriteEffect s t) : HostEffect op s t
  | reset (hop : op = .reset) : HostEffect op s s.applyReset

theorem hostStep_effect {op : HostOp} {s t : State} (h : hostStep op s = .next t) : HostEffect op s t := by
  cases op with
  | wr a v =>
    simp only [hostStep] at h
    split at h
    · cases h
    · rename_i win hw
      cases h
      exact .write _ (.inl ⟨a, v, rfl⟩) (write32_effect v (window32_inside hw))
  | wrb a b =>
    simp only [hostStep] at h
    split at h
    · cases h
    · rename_i win hw
      cases h
      exact .write _ (.inr ⟨a, b, rfl⟩) (write8_effect b (window8_inside hw))
  | rd a =>
    simp only [hostStep] at h
    split at h
    · cases h
    · cases h
      exact .read _ (.inl ⟨a, rfl⟩) (observeValue_sameBlock _ _ _ _) (by simp)
  | rdb a =>
    simp only [hostStep] at h
    split at h
    · cases h
    · cases h
      exact .read _ (.inr ⟨a, rfl⟩) (observeValue_sameBlock _ _ _ _) (by simp)
  | otherWidth bits a => cases h
  | wait =>
    simp only [hostStep] at h
    split at h
    · cases h
      exact .waitDone rfl ‹_›
    · cases h
      exact .waitAgain rfl (by simp_all)
  | reset =>
    cases h
    exact .reset rfl

/-- An admitted operation is answered. -/
theorem hostStep_admitted {op : HostOp} {s : State} (h : op.admitted s.params = true) : ∃ t, hostStep op s = .next t := by
  cases op with
  | wr a v =>
    simp only [HostOp.admitted] at h
    simp only [hostStep]
    split
    · rename_i hw; rw [hw] at h; cases h
    · exact ⟨_, rfl⟩
  | wrb a b =>
    simp only [HostOp.admitted] at h
    simp only [hostStep]
    split
    · rename_i hw; rw [hw] at h; cases h
    · exact ⟨_, rfl⟩
  | rd a =>
    simp only [HostOp.admitted] at h
    simp only [hostStep]
    split
    · rename_i hw; rw [hw] at h; cases h
    · exact ⟨_, rfl⟩
  | rdb a =>
    simp only [HostOp.admitted] at h
    simp only [hostStep]
    split
    · rename_i hw; rw [hw] at h; cases h
    · exact ⟨_, rfl⟩
  | otherWidth bits a => cases h
  | wait =>
    simp only [hostStep]
    split <;> exact ⟨_, rfl⟩
  | reset => exact ⟨_, rfl⟩

/-- No host step changes the parameters. -/
theorem hostStep_params {op : HostOp} {s t : State} (h : hostStep op s = .next t) : t.params = s.params := by
  cases hostStep_effect h with
  | read _ _ h _ => rw [h.block]
  | write _ _ h => cases h <;> rfl
  | _ => rfl

/-- No host step changes the schedule. -/
theorem hostStep_schedule {op : HostOp} {s t : State} (h : hostStep op s = .next t) :
    t.env.schedule = s.env.schedule := by
  cases hostStep_effect h with
  | read _ _ h _ => rw [h.schedule]
  | write _ _ h => cases h <;> rfl
  | _ => rfl

/-- A host step leaves the rest of the script as it is, but for a `wait` that is not over. -/
theorem hostStep_script {op : HostOp} {s t : State} (h : hostStep op s = .next t) :
    t.env.script = s.env.script ∨ (op = .wait ∧ t.env.script = .wait :: s.env.script) := by
  cases hostStep_effect h with
  | read _ _ _ hs => exact .inl hs
  | waitAgain hop _ => exact .inr ⟨hop, rfl⟩
  | write _ _ h => cases h <;> exact .inl rfl
  | _ => exact .inl rfl

end Sys2Proof.Machine
end

