-- ==== Sys2Proof/Laws/PerInstr.lean ====
section
/-! SUPPORT. The per-instruction family `Legal`: the word of every instruction is legal (30_encoding.md R80, R81). -/

namespace Sys2Proof.Laws.Legal

/-- The instruction is well formed and its word is legal, with nothing above bit 7. -/
def Statement (i : Instr) : Prop := i.wf = true ∧ legalWord (encode i) = true ∧ (encode i).toNat = i.op.toNat

theorem nop : Statement .nop := by unfold Statement; decide
theorem probe : Statement .probe := by unfold Statement; decide
theorem decode : Statement .decode := by unfold Statement; decide
theorem decodeDxt1 : Statement .decodeDxt1 := by unfold Statement; decide
theorem decodeDxt3 : Statement .decodeDxt3 := by unfold Statement; decide
theorem decodeDxt5 : Statement .decodeDxt5 := by unfold Statement; decide
theorem blockDxt1 : Statement .blockDxt1 := by unfold Statement; decide
theorem blockDxt3 : Statement .blockDxt3 := by unfold Statement; decide
theorem blockDxt5 : Statement .blockDxt5 := by unfold Statement; decide
theorem colorPalette : Statement .colorPalette := by unfold Statement; decide
theorem alphaPalette : Statement .alphaPalette := by unfold Statement; decide
theorem unpackRaw : Statement .unpackRaw := by unfold Statement; decide
theorem unpackPixel : Statement .unpackPixel := by unfold Statement; decide
theorem unpackSurface : Statement .unpackSurface := by unfold Statement; decide

end Sys2Proof.Laws.Legal
end

