-- ==== Sys2Proof/Tests/Slice0.lean ====
section
/-! SUPPORT. Tests of one step each, with the values of 95_test_vectors.md, and a witness for the hypotheses of every
obligation that has some. -/

namespace Sys2Proof.Tests

open Sys2Proof.Machine

/-! ## Helpers -/

/-- The reset block with `bytes` in SRC from offset 0, `SRC_LEN` their number, and the inputs `f` sets. -/
def given (bytes : List Nat) (f : Inputs → Inputs) : State :=
  { State.reset with
    inp := f { Inputs.reset with srcLen := BitVec.ofNat 32 bytes.length }
    src := bytes.zipIdx.map fun x => (x.2, BitVec.ofNat 8 x.1) }

/-- What `f` shows of the next state. -/
def after {α : Type} (o : Out) (f : State → α) : Option α :=
  match o with
  | .next t => some (f t)
  | .fault _ => none
  | .refused _ => none

/-- STATUS as a number. -/
def stat (s : State) : Nat := s.status.word.toNat

/-- RASTER words `p` and on, `n` of them. -/
def pixels (p n : Nat) (s : State) : List Nat := (List.range n).map fun k => (s.rasterWord (p + k)).toNat

def texels (s : State) : List Nat := s.out.texel.toList.map (·.toNat)

def palette (s : State) : List Nat := s.out.pal.toList.map (·.toNat)

/-- An idle and a busy block. -/
def idle : State := State.reset
def busy : State := State.reset.startCommand 0x00000000
def busyErr : State := State.reset.startCommand 0x00000110

/-- The block D1a of 95_test_vectors.md. -/
def d1a : List Nat := [0x00, 0xF8, 0xE0, 0x07, 0, 0, 0, 0]
def d1c : List Nat := [0xE0, 0x07, 0x00, 0xF8, 0x1B, 0x1B, 0x1B, 0x1B]
def d3a : List Nat := [0x10, 0x32, 0x54, 0x76, 0x98, 0xBA, 0xDC, 0xFE, 0xE0, 0x07, 0x00, 0xF8, 0xFF, 0xFF, 0xFF, 0xFF]
def d5a : List Nat := [0xFF, 0x00, 0x88, 0xC6, 0xFA, 0x88, 0xC6, 0xFA, 0x00, 0xF8, 0xE0, 0x07, 0, 0, 0, 0]

/-- The standard masks of 95_test_vectors.md. -/
def masks (i : Inputs) : Inputs :=
  { i with rMask := 0x00FF0000, gMask := 0x0000FF00, bMask := 0x000000FF, aMask := 0xFF000000 }

def sized (w h : Nat) (i : Inputs) : Inputs := { i with width := BitVec.ofNat 32 w, height := BitVec.ofNat 32 h }

/-! ## Well-formedness: each check refuses an ill-formed term -/

/-- R80: a bit of RSV is set. -/
theorem test_rsv_refused : rsvOk 0x00000110 = false ∧ legalWord 0x00000110 = false ∧ decode 0x80000010 = none := by
  decide

/-- R81: OP is not in the table. -/
theorem test_op_refused : opOk 0x00000003 = false ∧ opOk 0x0000007F = false ∧ legalWord 0x000000FF = false := by
  decide

/-- R7, R8: a capacity out of its range. -/
theorem test_params_refused :
    Params.wf ⟨15, 1024, false⟩ = false ∧ Params.wf ⟨2 ^ 24 + 1, 1024, false⟩ = false ∧
      Params.wf ⟨4096, 0, false⟩ = false ∧ Params.wf ⟨4096, 2 ^ 26 + 1, true⟩ = false := by decide

theorem test_params_accepted : Params.wf ⟨16, 2 ^ 26, false⟩ = true ∧ Params.wf ⟨2 ^ 24, 1, true⟩ = true := by
  decide

/-! ## Decoding: the words of 30_encoding.md's table -/

theorem test_decode_control :
    decode 0b00000000000000000000000000000000 = some .nop ∧ decode 0b00000000000000000000000000000001 = some .probe ∧
      decode 0b00000000000000000000000000000010 = some .decode := by decide

theorem test_decode_surface :
    decode 0b00000000000000000000000000010000 = some .decodeDxt1 ∧
      decode 0b00000000000000000000000000010001 = some .decodeDxt3 ∧
      decode 0b00000000000000000000000000010010 = some .decodeDxt5 := by decide

theorem test_decode_block :
    decode 0b00000000000000000000000000011000 = some .blockDxt1 ∧
      decode 0b00000000000000000000000000011001 = some .blockDxt3 ∧
      decode 0b00000000000000000000000000011010 = some .blockDxt5 := by decide

theorem test_decode_palette :
    decode 0b00000000000000000000000000100000 = some .colorPalette ∧
      decode 0b00000000000000000000000000100001 = some .alphaPalette := by decide

theorem test_decode_unpack :
    decode 0b00000000000000000000000000110000 = some .unpackRaw ∧
      decode 0b00000000000000000000000000110001 = some .unpackPixel ∧
      decode 0b00000000000000000000000000110010 = some .unpackSurface := by decide

/-- R66, R80: the word's bytes, the lowest address least significant. -/
theorem test_decode_bytes : decodeBytes [0x1A, 0, 0, 0, 0x55] = some (.blockDxt5, [0x55]) ∧ decodeBytes [0x1A, 0, 0] = none := by
  decide

theorem test_decode_table_word : decodeTableWord 32 0x31 = some .unpackPixel ∧ decodeTableWord 32 0x101 = none := by
  decide

/-! ## Reset and the step -/

/-- The command the host places runs at the very next step. -/
theorem test_placed_command_runs : after (step (State.reset.withFetchWord 32 0x00000000)) stat = some 0x00000002 := by
  decide

/-- R203: an illegal word ends in ILLEGAL_OP with the word in DIAG0. -/
theorem test_illegal_word :
    after (step (State.reset.withFetchWord 32 0x00000110)) (fun t => (stat t, t.out.diag0, t.out.diag1)) =
      some (0x00000106, 0x00000110, 0) := by decide

/-- R46: a write to an input register while busy sets WIGN (bit 3) and BUSY stays (bit 0). -/
theorem test_busy_write : after (hostStep (.wr 0x010 5) busy) (fun t => (stat t, t.inp.width)) = some (0x00000009, 0) := by
  decide

/-- R24: CTRL keeps bits 1:0. -/
theorem test_ctrl_write : after (hostStep (.wr 0x004 0xFFFFFFFE) idle) (fun t => t.readOffset 0x004) = some (.stored 2) := by
  decide

/-- R64, R67: the block answers neither access. -/
theorem test_stuck_accesses :
    hostStep (.rd 0x00001000) idle = .fault (.unmapped 0x00001000) ∧
      hostStep (.wr 0x00000012 0) idle = .fault (.misaligned 0x00000012) := ⟨rfl, rfl⟩

/-! ## One command, one step, against the vectors -/

theorem test_nop : after (exec .nop busy) (fun t => (stat t, t.pending)) = some (0x00000002, none) := by decide

/-- V-CTRL: luminance before alpha. -/
theorem test_probe_gray :
    after (exec .probe (given [] fun i => { i with pfFlags := 0x00020002, rgbBitCount := 8 }))
      (fun t => (stat t, t.out.cls.code)) = some (0x00000002, 4) := by decide

/-- V-CTRL: a 24-bit RGB image is not recognised. -/
theorem test_probe_unrecognized :
    after (exec .probe (given [] fun i => { i with pfFlags := 0x00000040, rgbBitCount := 24 }))
      (fun t => (stat t, t.out.cls.code, t.out.diag0, t.out.diag1)) = some (0x00000206, 0, 0x40, 24) := by decide

/-- S1, by DECODE: a DXT1 tag. -/
theorem test_decode_dxt1_image :
    after (exec .decode (given d1a fun i => { sized 4 4 i with pfFlags := 4, fourcc := 0x31545844 }))
      (fun t => (stat t, t.out.cls.code, t.out.route.code, t.out.blocksDone, pixels 0 16 t)) =
      some (0x00000002, 8, 1, 1, List.replicate 16 0xFF0000F8) := by decide

/-- V-CTRL: "DXT0" is no tag. -/
theorem test_decode_bad_tag :
    after (exec .decode (given d1a fun i => { sized 4 4 i with pfFlags := 4, fourcc := 0x30545844 }))
      (fun t => (stat t, t.out.diag0, t.out.route.code)) = some (0x00000306, 0x30545844, 0) := by decide

/-- S6: column 4 of a five-pixel row comes from block 1, and nothing wraps. -/
theorem test_decodeDxt1_right_edge :
    after (exec .decodeDxt1 (given (d1a ++ [0xE0, 0x07, 0x00, 0xF8, 0, 0, 0, 0]) (sized 5 4)))
      (fun t => (stat t, t.out.blocksDone, pixels 0 6 t)) =
      some (0x00000002, 2, [0xFF0000F8, 0xFF0000F8, 0xFF0000F8, 0xFF0000F8, 0xFF00FC00, 0xFF0000F8]) := by decide +kernel

/-- S7: a truncated buffer leaves the trailing block at 0, without error. -/
theorem test_decodeDxt1_truncated :
    after (exec .decodeDxt1 (given (d1a ++ [0xE0, 0x07, 0x00, 0xF8]) (sized 8 4)))
      (fun t => (stat t, t.out.blocksDone, pixels 3 2 t)) = some (0x00000002, 1, [0xFF0000F8, 0]) := by decide +kernel

/-- F8: texel `t` of D3a. -/
theorem test_decodeDxt3 :
    after (exec .decodeDxt3 (given d3a (sized 4 4))) (fun t => (stat t, t.out.blocksDone, pixels 12 4 t)) =
      some (0x00000002, 1, [0xCC000000, 0xDD000000, 0xEE000000, 0xFF000000]) := by decide

/-- F7: half a block is not decoded. -/
theorem test_decodeDxt3_half :
    after (exec .decodeDxt3 (given d1a (sized 4 4))) (fun t => (stat t, t.out.blocksDone, pixels 0 1 t)) =
      some (0x00000002, 0, [0]) := by decide

/-- F9, row 1 of D5a. -/
theorem test_decodeDxt5 :
    after (exec .decodeDxt5 (given d5a (sized 4 4))) (fun t => (stat t, t.out.blocksDone, pixels 4 4 t)) =
      some (0x00000002, 1, [0x910000F8, 0x6D0000F8, 0x480000F8, 0x240000F8]) := by decide

/-- D1c: 3-colour mode. -/
theorem test_blockDxt1 :
    after (exec .blockDxt1 (given d1c id)) (fun t => (stat t, palette t, (texels t).take 4)) =
      some (0x00000002, [0xFF00FC00, 0xFF0000F8, 0xFF007E7C, 0], [0, 0xFF007E7C, 0xFF0000F8, 0xFF00FC00]) := by decide

/-- D3a: nibble `t` goes to texel `t`. -/
theorem test_blockDxt3 :
    after (exec .blockDxt3 (given d3a id)) (fun t => (stat t, (texels t).take 6)) =
      some (0x00000002, [0, 0x11000000, 0x22000000, 0x33000000, 0x44000000, 0x55000000]) := by decide

/-- D5a: codes 0 to 7, two of which straddle bytes. -/
theorem test_blockDxt5 :
    after (exec .blockDxt5 (given d5a id)) (fun t => (t.out.apalLo, t.out.apalHi, (texels t).take 8)) =
      some (0xB6DA00FF, 0x24486D91,
        [0xFF0000F8, 0x000000F8, 0xDA0000F8, 0xB60000F8, 0x910000F8, 0x6D0000F8, 0x480000F8, 0x240000F8]) := by
  decide

/-- V-COL row 1: slot 3 truncates. -/
theorem test_colorPalette_four :
    after (exec .colorPalette (given [] fun i => { i with arg0 := 0x07E0F800 })) palette =
      some [0xFF0000F8, 0xFF00FC00, 0xFF0054A5, 0xFF00A852] := by decide

/-- V-COL row 6: the raw values choose the mode. -/
theorem test_colorPalette_three :
    after (exec .colorPalette (given [] fun i => { i with arg0 := 0xF800001F })) palette =
      some [0xFFF80000, 0xFF0000F8, 0xFF7C007C, 0] := by decide

/-- V-ALPHA row 12: bits 31:16 are ignored. -/
theorem test_alphaPalette_eight :
    after (exec .alphaPalette (given [] fun i => { i with arg0 := 0xABCD00FF })) (fun t => (t.out.apalLo, t.out.apalHi)) =
      some (0xB6DA00FF, 0x24486D91) := by decide

/-- V-ALPHA row 11. -/
theorem test_alphaPalette_six :
    after (exec .alphaPalette (given [] fun i => { i with arg0 := 0x00000502 })) (fun t => (t.out.apalLo, t.out.apalHi)) =
      some (0x03020502, 0xFF000403) := by decide

/-- V-UNPACK: 12 bits. -/
theorem test_unpackRaw_12 :
    after (exec .unpackRaw (given [0x01, 0x23, 0x45, 0x67, 0x89, 0xAB, 0xCD, 0xEF] fun i => { masks i with arg1 := 12 }))
      (fun t => (stat t, t.out.accHi, t.out.accLo, t.out.resultRgba)) = some (0x00000002, 0, 0x00000301, 0x00010300) := by
  decide

/-- V-UNPACK: 63 bits clear bit 63. -/
theorem test_unpackRaw_63 :
    after (exec .unpackRaw (given [0x01, 0x23, 0x45, 0x67, 0x89, 0xAB, 0xCD, 0xEF] fun i => { masks i with arg1 := 63 }))
      (fun t => (t.out.accHi, t.out.accLo, t.out.resultRgba)) = some (0x6FCDAB89, 0x67452301, 0x67012345) := by
  decide

/-- U3: 64-bit pixels. -/
theorem test_unpackPixel :
    after (exec .unpackPixel (given [0x34, 0x12, 0x78, 0x56, 0xBC, 0x9A, 0xF0, 0xDE] fun i =>
        { sized 1 1 i with rgbBitCount := 64, rMask := 0x0000FFFF, gMask := 0xFFFF0000 }))
      (fun t => (t.out.accLo, t.out.accHi, t.out.resultRgba)) = some (0x56781234, 0xDEF09ABC, 0x00007834) := by
  decide

/-- U1: 5:6:5 fields are not scaled. -/
theorem test_unpackSurface :
    after (exec .unpackSurface (given [0x1F, 0xF8, 0xE0, 0x07] fun i =>
        { sized 2 1 i with rgbBitCount := 16, rMask := 0xF800, gMask := 0x07E0, bMask := 0x001F }))
      (fun t => (stat t, pixels 0 2 t)) = some (0x00000002, [0x001F001F, 0x00003F00]) := by decide

/-! ## Witnesses: a state and operands that meet the hypotheses of each obligation, clause by clause -/

theorem witness_stepRunsTheDecodedCommand :
    (busy.pending = some 0x00000000 ∧ EngineToMove busy ∧ decode 0x00000000 = some .nop) ∧
      decode (BitVec.ofNat 32 0x32) = some .unpackSurface ∧ 0x32 < 2 ^ 32 :=
  ⟨⟨rfl, .inr rfl, by decide⟩, by decide +kernel⟩

/-- An idle and a busy block with a host that has two operations left. -/
def scripted (s : State) (sched : List Agent) : State :=
  { s with env := { s.env with script := [.wr 0x010 4, .wait], schedule := sched } }

theorem witness_stepRunsTheHostInOrder :
    ((scripted idle []).pending = none ∧ (scripted idle []).env.script = .wr 0x010 4 :: [.wait]) ∧
      ((scripted busy [.host]).pending = some 0x00000000 ∧ (scripted busy [.host]).env.schedule = .host :: [] ∧
        (scripted busy [.host]).env.script = .wr 0x010 4 :: [.wait]) ∧
      idle.pending = none ∧ idle.env.script = [] := ⟨⟨rfl, rfl⟩, ⟨rfl, rfl, rfl⟩, rfl, rfl⟩

theorem witness_illegalWordRaisesIllegalOp :
    decode 0x00000110 = none ∧ idle.status.busy = false ∧ busyErr.pending = some 0x00000110 ∧ EngineToMove busyErr :=
  ⟨by decide, rfl, rfl, .inr rfl⟩

/-- For CmdWriteStartsACommand, RegisterMapReads and IrqFollowsDoneAndEnable: an idle block. -/
theorem witness_idle : idle.status.busy = false := rfl

/-- For RegisterMapReads: the first and the last offset read while idle, and STATUS read while busy. -/
theorem witness_registerMapReads :
    (∀ off ∈ [0x000#32, 0x00C#32, 0xFFC#32], off.toNat < 0x1000 ∧ off.toNat % 4 = 0) ∧
      idle.readOffset 0x000 = .stored 0x43545844 ∧ idle.readOffset 0xFFC = .stored 0 ∧ busy.readOffset 0x00C = .stored 1 :=
  ⟨by simp, rfl, rfl, rfl⟩

/-- For IrqFollowsDoneAndEnable: words that do and do not clear DONE, and IRQ_EN, beside other bits. -/
theorem witness_irqFollowsDoneAndEnable :
    (0x0000000E : Word).getLsbD 1 = true ∧ (0x0000000C : Word).getLsbD 1 = false ∧ (0x00000002 : Word).getLsbD 0 = false ∧
      (0x00000003 : Word).getLsbD 0 = true := by decide

/-- For EveryCommandEndsIdle: the state a start leaves. -/
theorem witness_everyCommandEndsIdle :
    busy.status.err = false ∧ busy.status.errcode = .none ∧ busy.out.diag0 = 0 ∧ busy.out.diag1 = 0 := by decide

/-- The first and the last offset of the list. -/
theorem witness_busyRegisterWriteOnlySetsWign :
    busy.status.busy = true ∧
      ∀ off ∈ [0x004#32, 0x03C#32],
        off ∈ [0x004#32, 0x008, 0x010, 0x014, 0x018, 0x01C, 0x020, 0x024, 0x028, 0x02C, 0x030, 0x034, 0x038, 0x03C] := by
  simp [busy, State.startCommand, Status.start]

theorem witness_inputRegisterReadsBack :
    idle.status.busy = false ∧
      ∀ off ∈ [0x004#32, 0x03C#32],
        off ∈ [0x004#32, 0x010, 0x014, 0x018, 0x01C, 0x020, 0x024, 0x028, 0x02C, 0x030, 0x034, 0x038, 0x03C] := by
  simp [idle, State.reset, State.resetWith, Status.reset]

/-- ID, the first and the last read-only or reserved offset. -/
theorem witness_readOnlyAndReservedWritesAreIgnored :
    ∀ off ∈ [0x000#32, 0x040#32, 0x0C0#32, 0xFFC#32], off.toNat < 0x1000 ∧ off.toNat % 4 = 0 ∧ (off = 0 ∨ 0x040 ≤ off.toNat) := by
  simp

/-- The edges of both ranges. -/
theorem witness_busyResultReadIsAnyValue :
    busy.status.busy = true ∧
      (∀ off ∈ [0x040#32, 0x074#32, 0x080#32, 0x0BC#32],
        off.toNat % 4 = 0 ∧ off.toNat < 0x1000 ∧ 0x040 ≤ off.toNat ∧ off.toNat < 0x0C0 ∧ off ≠ 0x078 ∧ off ≠ 0x07C) ∧
      ∀ off ∈ [0x000#32, 0x03C#32, 0x078#32, 0x07C#32, 0x0C0#32, 0xFFC#32],
        off.toNat % 4 = 0 ∧ off.toNat < 0x1000 ∧ (off.toNat < 0x040 ∨ 0x0C0 ≤ off.toNat ∨ off = 0x078 ∨ off = 0x07C) ∧
          off ≠ 0x00C := by
  simp [busy, State.startCommand, Status.start]

/-- The first and the last byte, and the last whole word, of SRC, idle and busy. -/
theorem witness_srcWindowWriteThenRead :
    idle.params.wf = true ∧ idle.status.busy = false ∧ busy.params.wf = true ∧ busy.status.busy = true ∧
      (∀ i ∈ [0, 4092, 4095], i < idle.params.srcBytes ∧ i < busy.params.srcBytes) ∧
      (∀ i ∈ [0, 4092], i % 4 = 0 ∧ i + 4 ≤ idle.params.srcBytes ∧ i + 4 ≤ busy.params.srcBytes) := by decide

/-- The first and the last pixel, every byte lane. -/
theorem witness_rasterWindowIsReadOnly :
    idle.params.wf = true ∧ idle.status.busy = false ∧ busy.params.wf = true ∧ busy.status.busy = true ∧
      ∀ p ∈ [0, 1023], ∀ k ∈ [0, 3], p < idle.params.rasterPixels ∧ p < busy.params.rasterPixels ∧ k < 4 := by decide

/-- The first address of each hole, and the last address of all. -/
theorem witness_unmappedAccessStops :
    ∀ a ∈ [0x00001000#32, 0x00FFFFFF#32, 0x01001000#32, 0x0FFFFFFF#32, 0x10001000#32, 0xFFFFFFFF#32],
      0x1000 ≤ a.toNat ∧ ¬ (0x01000000 ≤ a.toNat ∧ a.toNat < 0x01000000 + idle.params.srcBytes) ∧
        ¬ (0x10000000 ≤ a.toNat ∧ a.toNat < 0x10000000 + 4 * idle.params.rasterPixels) := by
  simp [idle, State.reset, State.resetWith, Config.defaultParams]

/-- For UnmappedAccessStops: SRC ends one, and three, bytes into its last word. -/
theorem witness_unmappedWordStops :
    ∀ n ∈ [4097, 4099], ∃ s : State, s.params.srcBytes = n ∧ 0x01000000 ≤ (0x01001000 : Word).toNat ∧
      (0x01001000 : Word).toNat < 0x01000000 + s.params.srcBytes ∧
      0x01000000 + s.params.srcBytes < (0x01001000 : Word).toNat + 4 ∧ (0x01001000 : Word).toNat % 4 = 0 := by
  intro n hn
  refine ⟨State.resetWith ⟨n, 1024, false⟩ .powerOn, rfl, ?_⟩
  simp only [List.mem_cons, List.not_mem_nil, or_false] at hn
  rcases hn with rfl | rfl <;> simp [State.resetWith]

theorem witness_misalignedOrOddWidthAccessStops :
    (∀ a ∈ [0x00000001#32, 0x00000FFF#32, 0x01000001#32, 0x01000FFF#32, 0x10000002#32, 0x10000FFF#32],
      (a.toNat < 0x1000 ∨ (0x01000000 ≤ a.toNat ∧ a.toNat < 0x01000000 + idle.params.srcBytes) ∨
        (0x10000000 ≤ a.toNat ∧ a.toNat < 0x10000000 + 4 * idle.params.rasterPixels)) ∧ a.toNat % 4 ≠ 0) ∧
      (∀ a ∈ [0x00000000#32, 0x00000FFF#32], a.toNat < 0x1000) ∧ ∀ bits ∈ [0, 16, 64], bits ≠ 8 ∧ bits ≠ 32 := by
  simp [idle, State.reset, State.resetWith, Config.defaultParams]

theorem witness_hostReadsHaveNoSideEffect :
    (∃ t, hostStep (.rd 0x00C) busy = .next t) ∧ (∃ t, hostStep (.rdb 0x10000FFF) busy = .next t) ∧
      ∃ t, hostStep .wait busy = .next t := ⟨⟨_, rfl⟩, ⟨_, rfl⟩, ⟨_, rfl⟩⟩

/-- For ResetStateRegisters and ResetInputResetsTheBlock: the offsets beside the constants. -/
theorem witness_resetOffsets :
    ∀ off ∈ [0x004, 0x074, 0x080, 0xFFC], off < 0x1000 ∧ off ≠ 0x000 ∧ off ≠ 0x078 ∧ off ≠ 0x07C := by decide

/-- For ProbeWritesClass, and DECODE's first error. -/
theorem witness_probeWritesClass :
    (∃ s : State, classify s.params.rgbFlagRequired s.inp.pfFlags s.inp.rgbBitCount ≠ .none) ∧
      ∃ s : State, classify s.params.rgbFlagRequired s.inp.pfFlags s.inp.rgbBitCount = .none :=
  ⟨⟨given [] fun i => { i with rgbBitCount := 32 }, by decide⟩, ⟨idle, by decide +kernel⟩⟩

/-- Flag words that reach each branch, with every other flag set that the branch does not read. -/
theorem witness_classifierPriority :
    ((32 : Word) = 32 ∧ (true = false ∨ (0x00020246 : Word).getLsbD 6 = true)) ∧
      ((64 : Word) = 64 ∧ (false = false ∨ (0 : Word).getLsbD 6 = true)) ∧
      ((24 : Word) = 24 ∧ (0x00000200 : Word).getLsbD 9 = true) ∧
      ((8 : Word) = 8 ∧ (0x00020002 : Word).getLsbD 17 = true) ∧
      ((16 : Word) = 16 ∧ (0x00020000 : Word).getLsbD 17 = true) ∧
      ((8 : Word) = 8 ∧ (0x00000002 : Word).getLsbD 17 = false ∧ (0x00000002 : Word).getLsbD 1 = true) ∧
      ((16 : Word) = 16 ∧ (0x00000006 : Word).getLsbD 17 = false ∧ (0x00000006 : Word).getLsbD 1 = true) ∧
      (¬ (((32 : Word) = 32 ∨ (32 : Word) = 64) ∧ (true = false ∨ (0x00020004 : Word).getLsbD 6 = true)) ∧
        ¬ ((32 : Word) = 24 ∧ (0x00020004 : Word).getLsbD 9 = true) ∧
        ¬ (((32 : Word) = 8 ∨ (32 : Word) = 16) ∧
          ((0x00020004 : Word).getLsbD 17 = true ∨ (0x00020004 : Word).getLsbD 1 = true))) := by decide

/-- A compressed image: DXT1 of 4 by 4 pixels. -/
def dxt1Image : State := given d1a fun i => { sized 4 4 i with pfFlags := 4, fourcc := 0x31545844 }

/-- For DecodeRunsTheBlockCodec and DecodeCompressedCompletes. -/
theorem witness_decodeCompressed :
    classify dxt1Image.params.rgbFlagRequired dxt1Image.inp.pfFlags dxt1Image.inp.rgbBitCount ≠ .none ∧
      dxt1Image.inp.pfFlags.getLsbD 2 = true ∧
      fourccRoute dxt1Image.inp.fourcc dxt1Image.inp.ctrl.forceDxt3 = some .dxt1 ∧
      dxt1Image.inp.srcLen.toNat ≤ dxt1Image.params.srcBytes ∧
      dxt1Image.inp.width.toNat * dxt1Image.inp.height.toNat ≤ dxt1Image.params.rasterPixels := by decide

/-- An uncompressed image: 32 bits a pixel, 2 by 1, its payload exactly `SRC_LEN` bytes. -/
def rgbaImage : State :=
  given [1, 2, 3, 4, 5, 6, 7, 8] fun i => { sized 2 1 (masks i) with pfFlags := 0x41, rgbBitCount := 32 }

/-- For DecodeRunsTheUnpacker and DecodeUncompressedCompletes. -/
theorem witness_decodeUncompressed :
    classify rgbaImage.params.rgbFlagRequired rgbaImage.inp.pfFlags rgbaImage.inp.rgbBitCount ≠ .none ∧
      rgbaImage.inp.pfFlags.getLsbD 2 = false ∧ rgbaImage.inp.srcLen.toNat ≤ rgbaImage.params.srcBytes ∧
      rgbaImage.inp.width.toNat * rgbaImage.inp.height.toNat ≤ rgbaImage.params.rasterPixels ∧
      rgbaImage.inp.width.toNat * (rgbaImage.inp.rgbBitCount.toNat / 8) * rgbaImage.inp.height.toNat ≤
        rgbaImage.inp.srcLen.toNat := by decide

/-- A tag the dispatch does not know; a state with no class is in witness_probeWritesClass. -/
theorem witness_decodeRejectsFormatThenTag :
    ∃ s : State, classify s.params.rgbFlagRequired s.inp.pfFlags s.inp.rgbBitCount ≠ .none ∧
      s.inp.pfFlags.getLsbD 2 = true ∧ fourccRoute s.inp.fourcc s.inp.ctrl.forceDxt3 = none :=
  ⟨given [] fun i => { i with pfFlags := 4, fourcc := 0x30545844 }, by decide⟩

theorem witness_extractTakesTheMaskedBits : (0x80000000 : Word) ≠ 0 ∧ 31 < 32 ∧ 7 < 8 := by decide

/-- 1 bit and 64 bits of an 8-byte buffer, the last one ending exactly at `SRC_LEN`. -/
theorem witness_unpackRawResult :
    ∀ w ∈ [1, 64], ∃ s : State, s.inp.arg1.toNat = w ∧ 1 ≤ s.inp.arg1.toNat ∧ s.inp.arg1.toNat ≤ 64 ∧
      s.inp.srcLen.toNat ≤ s.params.srcBytes ∧ s.inp.arg0.toNat + (s.inp.arg1.toNat + 7) / 8 ≤ s.inp.srcLen.toNat := by
  intro w hw
  simp only [List.mem_cons, List.not_mem_nil, or_false] at hw
  rcases hw with rfl | rfl
  · exact ⟨given [1, 2, 3, 4, 5, 6, 7, 8] fun i => { i with arg1 := 1 }, by decide⟩
  · exact ⟨given [1, 2, 3, 4, 5, 6, 7, 8] fun i => { i with arg1 := 64 }, by decide⟩

/-- The widths 0 and 65; a buffer longer than SRC; a read that ends one byte after the buffer. -/
theorem witness_unpackRawErrors :
    (∃ s : State, s.inp.arg1 = 0 ∧ ¬ (1 ≤ s.inp.arg1.toNat ∧ s.inp.arg1.toNat ≤ 64)) ∧
      (∃ s : State, s.inp.arg1 = 65 ∧ ¬ (1 ≤ s.inp.arg1.toNat ∧ s.inp.arg1.toNat ≤ 64)) ∧
      (∃ s : State, 1 ≤ s.inp.arg1.toNat ∧ s.inp.arg1.toNat ≤ 64 ∧ s.params.srcBytes < s.inp.srcLen.toNat) ∧
      ∃ s : State, 1 ≤ s.inp.arg1.toNat ∧ s.inp.arg1.toNat ≤ 64 ∧ s.inp.srcLen.toNat ≤ s.params.srcBytes ∧
        s.inp.srcLen.toNat < s.inp.arg0.toNat + (s.inp.arg1.toNat + 7) / 8 :=
  ⟨⟨idle, by decide⟩, ⟨given [] fun i => { i with arg1 := 65 }, by decide +kernel⟩,
    ⟨given [] fun i => { i with arg1 := 1, srcLen := 4097 }, by decide⟩,
    ⟨given [1, 2] fun i => { i with arg1 := 17 }, by decide⟩⟩

/-- The last pixel of a 2 by 1 image of 32-bit pixels. -/
theorem witness_unpackPixelResult :
    ∃ (s : State) (n : Nat), s.inp.rgbBitCount.toNat = 8 * n ∧ 1 ≤ n ∧ n ≤ 8 ∧
      s.inp.arg0.toNat < s.inp.width.toNat ∧ s.inp.arg1.toNat < s.inp.height.toNat ∧
      s.inp.srcLen.toNat ≤ s.params.srcBytes ∧
      s.inp.arg1.toNat * (s.inp.width.toNat * n) + s.inp.arg0.toNat * n + n ≤ s.inp.srcLen.toNat :=
  ⟨given [1, 2, 3, 4, 5, 6, 7, 8] fun i => { sized 2 1 i with rgbBitCount := 32, arg0 := 1 }, 4, by decide⟩

/-- A state for each error, in the order of the checks. -/
theorem witness_unpackPixelErrors :
    (∃ s : State, ∀ n, 1 ≤ n → n ≤ 8 → s.inp.rgbBitCount.toNat ≠ 8 * n) ∧
      (∃ s : State, s.inp.rgbBitCount.toNat = 8 * 8 ∧
        (s.inp.width.toNat ≤ s.inp.arg0.toNat ∨ s.inp.height.toNat ≤ s.inp.arg1.toNat)) ∧
      (∃ s : State, s.inp.rgbBitCount.toNat = 8 * 1 ∧ s.inp.arg0.toNat < s.inp.width.toNat ∧
        s.inp.arg1.toNat < s.inp.height.toNat ∧ s.params.srcBytes < s.inp.srcLen.toNat) ∧
      ∃ s : State, s.inp.rgbBitCount.toNat = 8 * 1 ∧ s.inp.arg0.toNat < s.inp.width.toNat ∧
        s.inp.arg1.toNat < s.inp.height.toNat ∧ s.inp.srcLen.toNat ≤ s.params.srcBytes ∧
        s.inp.srcLen.toNat < s.inp.arg1.toNat * (s.inp.width.toNat * 1) + s.inp.arg0.toNat * 1 + 1 :=
  ⟨⟨given [] fun i => { i with rgbBitCount := 12 }, fun n _ _ h => by
      have h' : (12 : Nat) = 8 * n := h
      omega⟩,
    ⟨given [] fun i => { i with rgbBitCount := 64 }, by decide⟩,
    ⟨given [] fun i => { sized 1 1 i with rgbBitCount := 8, srcLen := 4097 }, by decide⟩,
    ⟨given [] fun i => { sized 1 1 i with rgbBitCount := 8 }, by decide⟩⟩

/-- Pixel (1, 0) is the last of the image; byte 8 is the first beyond it. -/
theorem witness_unpackSurfacePixels :
    rgbaImage.inp.rgbBitCount.toNat = 8 * 4 ∧ rgbaImage.inp.srcLen.toNat ≤ rgbaImage.params.srcBytes ∧
      rgbaImage.inp.width.toNat * rgbaImage.inp.height.toNat ≤ rgbaImage.params.rasterPixels ∧
      rgbaImage.inp.width.toNat * 4 * rgbaImage.inp.height.toNat ≤ rgbaImage.inp.srcLen.toNat ∧
      1 < rgbaImage.inp.width.toNat ∧ 0 < rgbaImage.inp.height.toNat ∧
      4 * (rgbaImage.inp.width.toNat * rgbaImage.inp.height.toNat) ≤ 8 := by decide

theorem witness_unpackSurfaceErrors :
    (∃ s : State, ∀ n, 1 ≤ n → n ≤ 8 → s.inp.rgbBitCount.toNat ≠ 8 * n) ∧
      (∃ s : State, s.inp.rgbBitCount.toNat = 8 * 1 ∧ s.params.srcBytes < s.inp.srcLen.toNat) ∧
      (∃ s : State, s.inp.rgbBitCount.toNat = 8 * 1 ∧ s.inp.srcLen.toNat ≤ s.params.srcBytes ∧
        s.params.rasterPixels < s.inp.width.toNat * s.inp.height.toNat) ∧
      ∃ s : State, s.inp.rgbBitCount.toNat = 8 * 8 ∧ s.inp.srcLen.toNat ≤ s.params.srcBytes ∧
        s.inp.width.toNat * s.inp.height.toNat ≤ s.params.rasterPixels ∧
        s.inp.srcLen.toNat < s.inp.width.toNat * 8 * s.inp.height.toNat :=
  ⟨⟨given [] fun i => { i with rgbBitCount := 72 }, fun n _ _ h => by
      have h' : (72 : Nat) = 8 * n := h
      omega⟩,
    ⟨given [] fun i => { i with rgbBitCount := 8, srcLen := 4097 }, by decide⟩,
    ⟨given [] fun i => { sized 1025 1 i with rgbBitCount := 8 }, by decide⟩,
    ⟨given [1, 2, 3, 4, 5, 6, 7] fun i => { sized 1 1 i with rgbBitCount := 64 }, by decide⟩⟩

/-- For AlphaPaletteResult and BlockDxt5Result: the byte numbers; for BlockDxt1Result, BlockDxt3Result and
BlockDxt5Result: a block that ends exactly at `SRC_LEN`. -/
theorem witness_blockResults :
    (0 < 4 ∧ 3 < 4) ∧
      ((given d1a id).inp.srcLen.toNat ≤ (given d1a id).params.srcBytes ∧
        (given d1a id).inp.arg0.toNat + 8 ≤ (given d1a id).inp.srcLen.toNat) ∧
      ((given d3a id).inp.srcLen.toNat ≤ (given d3a id).params.srcBytes ∧
        (given d3a id).inp.arg0.toNat + 16 ≤ (given d3a id).inp.srcLen.toNat) ∧
      (given d5a id).inp.srcLen.toNat ≤ (given d5a id).params.srcBytes ∧
        (given d5a id).inp.arg0.toNat + 16 ≤ (given d5a id).inp.srcLen.toNat := by decide

/-- E7, and a block offset one byte too far, and E20's sum of 2^32. -/
theorem witness_blockErrors :
    (∃ s : State, s.params.srcBytes < s.inp.srcLen.toNat) ∧
      (∃ s : State, s.inp.srcLen.toNat ≤ s.params.srcBytes ∧ s.inp.arg0 = 1 ∧
        s.inp.srcLen.toNat < s.inp.arg0.toNat + Variant.dxt1.blockSize) ∧
      ∃ s : State, s.inp.srcLen.toNat ≤ s.params.srcBytes ∧ s.inp.arg0.toNat + Variant.dxt1.blockSize = 2 ^ 32 ∧
        s.inp.srcLen.toNat < s.inp.arg0.toNat + Variant.dxt1.blockSize :=
  ⟨⟨given [] fun i => { i with srcLen := 4097 }, by decide⟩,
    ⟨given d1a fun i => { i with arg0 := 1 }, by decide⟩,
    ⟨given d1a fun i => { i with arg0 := 0xFFFFFFF8 }, by decide⟩⟩

/-- The image of S6: its last pixel is in a block that is whole, and byte 80 is the first beyond the image. The
truncated image of S7 has a pixel whose block is not whole. -/
theorem witness_surfaceDecodePixels :
    ((given (d1a ++ d1c) (sized 5 4)).inp.srcLen.toNat ≤ (given (d1a ++ d1c) (sized 5 4)).params.srcBytes ∧
      (given (d1a ++ d1c) (sized 5 4)).inp.width.toNat * (given (d1a ++ d1c) (sized 5 4)).inp.height.toNat ≤
        (given (d1a ++ d1c) (sized 5 4)).params.rasterPixels ∧
      4 < (given (d1a ++ d1c) (sized 5 4)).inp.width.toNat ∧ 3 < (given (d1a ++ d1c) (sized 5 4)).inp.height.toNat ∧
      (3 / 4 * ((5 + 3) / 4) + 4 / 4 + 1) * Variant.dxt1.blockSize ≤ (given (d1a ++ d1c) (sized 5 4)).inp.srcLen.toNat ∧
      4 * (5 * 4) ≤ 80) ∧
      ¬ (0 / 4 * ((8 + 3) / 4) + 4 / 4 + 1) * Variant.dxt1.blockSize ≤ (given (d1a ++ [1, 2, 3, 4]) (sized 8 4)).inp.srcLen.toNat := by
  decide

/-- E22, and E21: the exact product `2^32`. -/
theorem witness_surfaceDecodeErrors :
    (∃ s : State, s.params.srcBytes < s.inp.srcLen.toNat) ∧
      ∃ s : State, s.inp.srcLen.toNat ≤ s.params.srcBytes ∧ s.inp.width.toNat * s.inp.height.toNat = 2 ^ 32 ∧
        s.params.rasterPixels < s.inp.width.toNat * s.inp.height.toNat :=
  ⟨⟨given [] fun i => { i with srcLen := 5000 }, by decide⟩, ⟨given [] (sized 0x10000 0x10000), by decide +kernel⟩⟩

/-- For CommandsKeepTheirInputs and CommandWriteSets: a command that answers a next state, and one of each list. -/
theorem witness_commandFrames :
    (∃ t, exec .nop busy = .next t) ∧ Instr.nop ∉ [Instr.probe, .decode] ∧ Instr.nop ≠ .decode ∧
      Instr.nop ∉ [Instr.decode, .decodeDxt1, .decodeDxt3, .decodeDxt5, .unpackSurface] ∧
      Instr.nop ∉ [Instr.unpackRaw, .unpackPixel] ∧ Instr.nop ∉ [Instr.colorPalette, .blockDxt1, .blockDxt3, .blockDxt5] ∧
      Instr.nop ∉ [Instr.alphaPalette, .blockDxt5] ∧ 4 * (busy.inp.width.toNat * busy.inp.height.toNat) ≤ 0 :=
  ⟨⟨_, rfl⟩, by decide⟩

/-- DECODE of an unrecognised format raises. -/
theorem witness_errorEndLeavesDataUnchanged :
    ∃ t, exec .decode busy = .next t ∧ busy.status.err = false ∧ t.status.err = true := ⟨_, rfl, rfl, rfl⟩

/-- Two states that differ in SRC beyond `SRC_LEN`, in WIDTH and in FOURCC, for a BLOCK_DXT1. -/
theorem witness_commandsReadOnlyTheirInputs :
    ∃ s t : State, s ≠ t ∧ SameOutside s t ∧ AgreeOnInputs .blockDxt1 s t := by
  refine ⟨given (d1a ++ [1]) fun i => { i with srcLen := 8 }, given (d1a ++ [2]) fun i => { sized 7 7 i with srcLen := 8, fourcc := 1 },
    by decide, ⟨rfl, rfl, rfl, rfl, rfl⟩, rfl, rfl, ?_⟩
  intro k hk
  have h8 : k < 8 := hk
  obtain rfl | rfl | rfl | rfl | rfl | rfl | rfl | rfl :
    k = 0 ∨ k = 1 ∨ k = 2 ∨ k = 3 ∨ k = 4 ∨ k = 5 ∨ k = 6 ∨ k = 7 := by omega
  all_goals rfl

/-- A state with a command pending, a host program left and a schedule, that keeps the invariant. -/
def running : State := scripted busy [.host, .engine]

theorem witness_invariant : Inv running where
  params := by decide
  srcForm := List.Pairwise.nil
  rasterForm := List.Pairwise.nil
  srcInside := by decide
  rasterInside := by decide
  busyPending := rfl
  running := fun _ => ⟨rfl, rfl, rfl, rfl, rfl, rfl⟩
  errCode := fun h => by cases h

/-- For StepKeepsTheInvariant and ConstantsNeverChange (whose offsets are a list). -/
theorem witness_step : ∃ t, step running = .next t := ⟨_, rfl⟩

/-- For AdmittedProgramNeverStops and BusyWindowIsFinite. -/
theorem witness_admittedScript : AdmittedScript running ∧ running.pending.isSome = true := by
  refine ⟨?_, rfl⟩
  intro op hop
  have h : op = .wr 0x010 4 ∨ op = .wait := by simpa [running, scripted] using hop
  rcases h with rfl | rfl <;> rfl

theorem witness_waitEnds :
    ∃ (s : State) (rest : List HostOp), s.pending.isSome = true ∧ s.env.script = .wait :: rest ∧ s.env.schedule ≠ [] :=
  ⟨{ busy with env := { busy.env with script := [.wait, .rd 0x00C], schedule := [.host, .host] } }, [.rd 0x00C], rfl, rfl,
    by decide⟩

theorem witness_commandUnaffectedByHostWhileBusy :
    Inv running ∧ running.pending = some 0x00000000 ∧ HostOp.wr 0x008 1 ≠ .reset ∧ ∃ u, hostStep (.wr 0x008 1) running = .next u :=
  ⟨witness_invariant, rfl, by decide, ⟨_, rfl⟩⟩

end Sys2Proof.Tests
end

section
/-! SUPPORT. Everything one step of the machine can do, said once. -/

namespace Sys2Proof.Machine

/-- The two agents' moves (70_reset_and_hazards.md R234): nothing at all, the host's next operation from the state that
no longer lists it (nor, while a command is pending, the used-up choice of agent), or the engine's step. -/
inductive StepEffect (s t : State) : Prop where
  | idle (hp : s.pending = none) (hs : s.env.script = []) (ht : t = s)
  | host (op : HostOp) (rest : List HostOp) (sched : List Agent) (hs : s.env.script = op :: rest)
      (hm : (s.pending = none ∧ sched = s.env.schedule) ∨ (s.pending.isSome ∧ s.env.schedule = .host :: sched))
      (h : hostStep op { s with env := { s.env with script := rest, schedule := sched } } = .next t)
  | engine (v : Word) (hp : s.pending = some v) (hm : EngineToMove s) (h : engineStep v s.popSchedule = .next t)

theorem nextAgent_host {s : State} (h : nextAgent s = .host) :
    ∃ op rest sched, s.env.script = op :: rest ∧ s.env.schedule = .host :: sched := by
  unfold nextAgent at h
  split at h
  · exact ⟨_, _, _, ‹_›, ‹_›⟩
  · cases h

theorem nextAgent_engine {s : State} (h : nextAgent s = .engine) : EngineToMove s := by
  unfold EngineToMove
  by_contra hc
  obtain ⟨hsched, hscript⟩ := not_or.mp hc
  obtain ⟨sched, hsched⟩ := List.head?_eq_some_iff.mp (not_not.mp hsched)
  obtain ⟨op, rest, hscript⟩ := List.exists_cons_of_ne_nil hscript
  simp [nextAgent, hsched, hscript] at h

theorem step_effect {s t : State} (h : step s = .next t) : StepEffect s t := by
  unfold step turn at h
  split at h
  · rename_i hp
    unfold hostTurn at h
    split at h
    · exact .idle hp ‹_› (Host.Outcome.next.inj h).symm
    · rename_i op rest hs
      exact .host op rest s.env.schedule hs (.inl ⟨hp, rfl⟩) h
  · rename_i v hp
    split at h
    · obtain ⟨op, rest, sched, hs, hsched⟩ := nextAgent_host ‹_›
      refine .host op rest sched hs (.inr ⟨by simp [hp], hsched⟩) ?_
      simpa [hostTurn, State.popSchedule, hs, hsched] using h
    · exact .engine v hp (nextAgent_engine ‹_›) h

/-- Everything the engine can do with the pending word: an illegal one raises `ILLEGAL_OP` (60_exceptions.md R203), a
legal one runs its command. -/
theorem engineStep_cases {v : Word} {s t : State} (h : engineStep v s = .next t) :
    (decode v = none ∧ t = s.raise ⟨.illegalOp, v.toNat, 0⟩) ∨ ∃ i, decode v = some i ∧ exec i s = .next t := by
  unfold engineStep at h
  split at h
  · exact .inl ⟨‹_›, (Host.Outcome.next.inj h).symm⟩
  · exact .inr ⟨_, ‹_›, h⟩

end Sys2Proof.Machine
end

section
/-! The invariant is kept by every step: by the two ends of a command, by each effect of a host write, and by a reset. -/

namespace Sys2Proof.Machine

variable {s t : State}

/-- No clause of the invariant speaks of the model's own `env`. -/
theorem Inv.setEnv (h : Inv s) (e : Env) : Inv { s with env := e } :=
  ⟨h.params, h.srcForm, h.rasterForm, h.srcInside, h.rasterInside, h.busyPending, h.running, h.errCode⟩

theorem Inv.raise (h : Inv s) (o : Results) {e : CmdError} (he : e.code ≠ .none) :
    Inv (State.raise e { s with out := o }) where
  params := h.params
  srcForm := h.srcForm
  rasterForm := h.rasterForm
  srcInside := h.srcInside
  rasterInside := h.rasterInside
  busyPending := rfl
  running := fun hb => by cases hb
  errCode := fun _ => he

theorem Inv.complete (h : Inv s) (o : Results) {i : Instr} {m : Memory} (hm : RasterWritten i s m) :
    Inv (State.complete { s with out := o, raster := m }) where
  params := h.params
  srcForm := h.srcForm
  rasterForm := hm.form h.rasterForm
  srcInside := h.srcInside
  rasterInside := fun c hc => (hm.inside c hc).elim (h.rasterInside c) id
  busyPending := rfl
  running := fun hb => by cases hb
  errCode := h.errCode

theorem Inv.engineStep (h : Inv s) {v : Word} (ht : engineStep v s = .next t) : Inv t := by
  rcases engineStep_cases ht with ⟨-, rfl⟩ | ⟨i, -, hi⟩
  · exact h.raise s.out (by simp)
  · cases exec_ends hi with
    | error o e _ _ hc ht => exact ht ▸ h.raise o hc
    | complete o m _ hm ht => exact ht ▸ h.complete o hm

theorem Inv.startCommand (h : Inv s) (v : Word) : Inv (s.startCommand v) where
  params := h.params
  srcForm := h.srcForm
  rasterForm := h.rasterForm
  srcInside := h.srcInside
  rasterInside := h.rasterInside
  busyPending := rfl
  running := fun _ => ⟨rfl, rfl, rfl, rfl, rfl, rfl⟩
  errCode := fun he => by cases he

/-- A write to `STATUS` can only clear DONE and ERR, which are clear already while a command runs. -/
theorem Inv.writeOneToClear (h : Inv s) (v : Word) : Inv { s with status := s.status.writeOneToClear v } where
  params := h.params
  srcForm := h.srcForm
  rasterForm := h.rasterForm
  srcInside := h.srcInside
  rasterInside := h.rasterInside
  busyPending := h.busyPending
  running := fun hb => by
    obtain ⟨hdone, herr, hrest⟩ := h.running hb
    exact ⟨by simp [hdone], by simp [herr], hrest⟩
  errCode := fun he => h.errCode (Bool.and_eq_true_iff.mp he).1

theorem Inv.setSrc (h : Inv s) {m : Memory} (hform : m.wf) (hin : ∀ c ∈ m, c.1 < s.params.srcBytes) :
    Inv { s with src := m } :=
  ⟨h.params, hform, h.rasterForm, hin, h.rasterInside, h.busyPending, h.running, h.errCode⟩

theorem Inv.write (h : Inv s) (ht : WriteEffect s t) : Inv t := by
  cases ht with
  | ignored => exact h
  | wign _ | input _ _ =>
    exact ⟨h.params, h.srcForm, h.rasterForm, h.srcInside, h.rasterInside, h.busyPending, h.running, h.errCode⟩
  | start _ v => exact h.startCommand v
  | clear v => exact h.writeOneToClear v
  | srcByte _ i hi b =>
    refine h.setSrc (Memory.wf_put i b h.srcForm) fun c hc => ?_
    rcases Memory.mem_put hc with rfl | hc
    · exact hi
    · exact h.srcInside c hc
  | srcWord _ i hi v =>
    refine h.setSrc (Memory.wf_putWord i v h.srcForm) fun c hc => ?_
    rcases Memory.mem_putWord hc with hc | hc
    · omega
    · exact h.srcInside c hc

theorem Inv.applyReset (h : Inv s) : Inv s.applyReset where
  params := h.params
  srcForm := List.Pairwise.nil
  rasterForm := List.Pairwise.nil
  srcInside := fun _ hc => by cases hc
  rasterInside := fun _ hc => by cases hc
  busyPending := rfl
  running := fun hb => by cases hb
  errCode := fun he => by cases he

theorem Inv.hostStep (h : Inv s) {op : HostOp} (ht : hostStep op s = .next t) : Inv t := by
  cases hostStep_effect ht with
  | read _ _ hb _ => exact hb.block ▸ h.setEnv t.env
  | waitDone _ _ | waitAgain _ _ => exact h.setEnv _
  | write _ _ hw => exact h.write hw
  | reset _ => exact h.applyReset

theorem Inv.step (h : Inv s) (ht : step s = .next t) : Inv t := by
  cases step_effect ht with
  | idle _ _ ht => exact ht ▸ h
  | host op rest sched _ _ ht => exact (h.setEnv _).hostStep ht
  | engine v _ _ ht => exact (h.setEnv _ : Inv s.popSchedule).engineStep ht

/-- Settles O54: the agent that moves keeps the invariant, the host by `Inv.hostStep`, the engine by `Inv.engineStep`. -/
theorem stepKeepsTheInvariant : Obligations.StepKeepsTheInvariant :=
  fun _ _ h ht => h.step ht

end Sys2Proof.Machine
end

section
/-! SUPPORT. The register file as the host sees it (10_state.md R22 to R46): what an access of an offset does, by the
register's class, and which class an offset has. -/

namespace Sys2Proof.Machine

variable (s : State)

/-! ## Offsets and classes -/

theorem Reg.cl_of_offset {r : Reg} (h : r.offset = 0 ∨ 0x040 ≤ r.offset) : r.cl = .ro ∨ r.cl = .const := by
  cases r <;> simp [Reg.offset, Reg.cl] at h ⊢

/-- The class of a register that shows no result, so that a read of it while busy is bound (R51). -/
theorem Reg.cl_ne_ro_of_offset {r : Reg} (h : r.offset < 0x040 ∨ r.offset = 0x078 ∨ r.offset = 0x07C) :
    r.cl ≠ .ro := by
  cases r <;> simp [Reg.offset, Reg.cl] at h ⊢ <;> omega

/-- The offsets of the result registers: all those from `CLASS` to `TEXEL15` but the two capacities. -/
theorem Reg.ofOffset_result {off : Nat} (h4 : off % 4 = 0) (h1 : 0x040 ≤ off) (h2 : off < 0x0C0) (h78 : off ≠ 0x078)
    (h7C : off ≠ 0x07C) : ∃ r, Reg.ofOffset off = some r ∧ r.cl = .ro := by
  have table : ∀ k < 32, k ≠ 14 → k ≠ 15 → ∃ r ∈ Reg.all, r.offset = 0x040 + 4 * k ∧ r.cl = .ro := by decide
  obtain ⟨r, -, hoff, hcl⟩ := table ((off - 0x040) / 4) (by omega) (by omega) (by omega)
  rw [show 0x040 + 4 * ((off - 0x040) / 4) = off by omega] at hoff
  exact ⟨r, hoff ▸ r.ofOffset_offset, hcl⟩

theorem Reg.offset_inj {r r' : Reg} : r.offset = r'.offset ↔ r = r' := by
  refine ⟨fun h => ?_, fun h => h ▸ rfl⟩
  have := r.ofOffset_offset
  rw [h, r'.ofOffset_offset] at this
  exact (Option.some.inj this).symm

/-- The input registers (class `RW` of R22), by rising offset. -/
def Reg.inputs : List Reg :=
  [.ctrl, .width, .height, .pfFlags, .rgbBitCount, .rMask, .gMask, .bMask, .aMask, .fourcc, .srcLen, .arg0, .arg1]

theorem Reg.cl_of_mem_inputs {r : Reg} (h : r ∈ Reg.inputs) : r.cl = .rw := by
  have table : ∀ r ∈ Reg.inputs, r.cl = .rw := by decide
  exact table r h

theorem exists_input_of_mem {off : Word}
    (h : off ∈ [0x004#32, 0x010, 0x014, 0x018, 0x01C, 0x020, 0x024, 0x028, 0x02C, 0x030, 0x034, 0x038, 0x03C]) :
    ∃ r ∈ Reg.inputs, BitVec.ofNat 32 r.offset = off :=
  List.mem_map.mp (show off ∈ Reg.inputs.map (fun r => BitVec.ofNat 32 r.offset) from h)

/-! ## Reads by class -/

theorem State.readOffset_of_ne_ro {r : Reg} (h : r.cl ≠ .ro) : s.readOffset r.offset = .stored (s.readReg r) := by
  simp [h]

variable {s} in
theorem State.readOffset_idle (hb : s.status.busy = false) (r : Reg) :
    s.readOffset r.offset = .stored (s.readReg r) := by simp [hb]

theorem State.readOffset_reserved {off : Nat} (h : 0x0C0 ≤ off) : s.readOffset off = .stored 0 := by
  simp [State.readOffset, Reg.ofOffset_reserved h]

/-- A host read of a register offset whose value is stored changes the record of reads alone (20_memory.md R68). -/
theorem hostStep_rd_stored {a w : Word} (h : a.toNat < 0x1000) (h4 : a.toNat % 4 = 0)
    (hw : s.readOffset a.toNat = .stored w) : hostStep (.rd a) s = .next (s.observe a w) := by
  rw [hostStep_rd_reg s a h h4, hw, State.observeValue]

/-- A 32-bit read of any value takes the next free one whole (R51, R71). -/
theorem State.observeValue_anyValue32 (a : Word) : s.observeValue a 0xFFFFFFFF .anyValue =
    { s with env := { s.env with
        draws := s.env.draws + 1, reads := ⟨a, Config.busyRead s.env.draws⟩ :: s.env.reads } } := by
  rw [State.observeValue, show (0xFFFFFFFF : Word) = BitVec.allOnes 32 from rfl, BitVec.and_allOnes]
  rfl

/-! ## Writes by class -/

/-- A 32-bit host write to a register offset. -/
theorem hostStep_wr_offset {a : Word} (h : a.toNat < 0x1000) (h4 : a.toNat % 4 = 0) (v : Word) :
    hostStep (.wr a v) s = .next (s.writeOffset a.toNat v) := by
  simp only [hostStep, window32_reg s.params h h4, State.write32]

theorem State.writeReg_ignored {r : Reg} (h : r.cl = .ro ∨ r.cl = .const) (v : Word) : s.writeReg r v = s := by
  rcases h with h | h <;> simp [State.writeReg, h]

variable {s} in
theorem State.writeReg_busy (hb : s.status.busy = true) {r : Reg} (h : r.cl = .rw ∨ r.cl = .ws) (v : Word) :
    s.writeReg r v = s.ignoreWrite := by
  rcases h with h | h <;> simp [State.writeReg, h, hb]

variable {s} in
theorem State.writeReg_input (hb : s.status.busy = false) {r : Reg} (h : r.cl = .rw) (v : Word) :
    s.writeReg r v = { s with inp := s.inp.write r v } := by simp [State.writeReg, h, hb]

variable {s} in
theorem State.writeReg_cmd (hb : s.status.busy = false) (v : Word) : s.writeReg .cmd v = s.startCommand v := by
  simp [State.writeReg, Reg.cl, hb]

theorem hostStep_wr_status (v : Word) :
    hostStep (.wr 0x00C v) s = .next { s with status := s.status.writeOneToClear v } := hostStep_wr_reg s .status v

variable {s} in
theorem hostStep_wr_cmd (hb : s.status.busy = false) (v : Word) :
    hostStep (.wr 0x008 v) s = .next (s.startCommand v) :=
  (hostStep_wr_reg s .cmd v).trans (congrArg _ (State.writeReg_cmd hb v))

/-- A write to `ID`, to a result, to a capacity or to a reserved offset is ignored (R22, R46). -/
theorem State.writeOffset_ignored {off : Nat} (h : off = 0 ∨ 0x040 ≤ off) (v : Word) : s.writeOffset off v = s := by
  unfold State.writeOffset
  split
  · rfl
  · rename_i r hr
    have hoff := Reg.offset_of_ofOffset hr
    exact s.writeReg_ignored (Reg.cl_of_offset (hoff ▸ h)) v

/-! ## The input registers, field by field after a write -/

section
variable (i : Inputs) (r : Reg) (v : Word)

@[simp] theorem Inputs.write_ctrl : (i.write r v).ctrl = if r = .ctrl then .ofWord v else i.ctrl := by
  cases r <;> simp [Inputs.write]
@[simp] theorem Inputs.write_width : (i.write r v).width = if r = .width then v else i.width := by
  cases r <;> simp [Inputs.write]
@[simp] theorem Inputs.write_height : (i.write r v).height = if r = .height then v else i.height := by
  cases r <;> simp [Inputs.write]
@[simp] theorem Inputs.write_pfFlags : (i.write r v).pfFlags = if r = .pfFlags then v else i.pfFlags := by
  cases r <;> simp [Inputs.write]
@[simp] theorem Inputs.write_rgbBitCount :
    (i.write r v).rgbBitCount = if r = .rgbBitCount then v else i.rgbBitCount := by cases r <;> simp [Inputs.write]
@[simp] theorem Inputs.write_rMask : (i.write r v).rMask = if r = .rMask then v else i.rMask := by
  cases r <;> simp [Inputs.write]
@[simp] theorem Inputs.write_gMask : (i.write r v).gMask = if r = .gMask then v else i.gMask := by
  cases r <;> simp [Inputs.write]
@[simp] theorem Inputs.write_bMask : (i.write r v).bMask = if r = .bMask then v else i.bMask := by
  cases r <;> simp [Inputs.write]
@[simp] theorem Inputs.write_aMask : (i.write r v).aMask = if r = .aMask then v else i.aMask := by
  cases r <;> simp [Inputs.write]
@[simp] theorem Inputs.write_fourcc : (i.write r v).fourcc = if r = .fourcc then v else i.fourcc := by
  cases r <;> simp [Inputs.write]
@[simp] theorem Inputs.write_srcLen : (i.write r v).srcLen = if r = .srcLen then v else i.srcLen := by
  cases r <;> simp [Inputs.write]
@[simp] theorem Inputs.write_arg0 : (i.write r v).arg0 = if r = .arg0 then v else i.arg0 := by
  cases r <;> simp [Inputs.write]
@[simp] theorem Inputs.write_arg1 : (i.write r v).arg1 = if r = .arg1 then v else i.arg1 := by
  cases r <;> simp [Inputs.write]

end

/-- An input register reads back what was written, `CTRL` its two defined bits (R24). -/
theorem State.readReg_write_same {r : Reg} (h : r.cl = .rw) (v : Word) :
    State.readReg { s with inp := s.inp.write r v } r = if r = .ctrl then v &&& 3 else v := by
  cases r <;> simp [Reg.cl] at h <;> simp [State.readReg, Ctrl.word_ofWord]

theorem State.readReg_write_other {r r' : Reg} (h : r ≠ r') (v : Word) :
    State.readReg { s with inp := s.inp.write r v } r' = s.readReg r' := by
  cases r' <;> simp [State.readReg, h]

theorem State.readOffset_write_other {r : Reg} {off : Nat} (h : off ≠ r.offset) (v : Word) :
    State.readOffset { s with inp := s.inp.write r v } off = s.readOffset off := by
  unfold State.readOffset
  cases hr : Reg.ofOffset off with
  | none => rfl
  | some r' =>
    have hne : r ≠ r' := fun heq => h (heq ▸ Reg.offset_of_ofOffset hr).symm
    simp only [s.readReg_write_other hne v]

/-! ## STATUS as a number (R26) -/

theorem Status.toNat_word (st : Status) : st.word.toNat =
    st.busy.toNat + 2 * st.done.toNat + 4 * st.err.toNat + 8 * st.wign.toNat + 256 * st.errcode.code.toNat := by
  obtain ⟨busy, done, err, wign, code⟩ := st
  cases code <;> revert busy done err wign <;> decide

theorem Status.getLsbD_word (st : Status) : st.word.getLsbD 0 = st.busy ∧ st.word.getLsbD 1 = st.done ∧
    st.word.getLsbD 2 = st.err ∧ st.word.getLsbD 3 = st.wign := by
  obtain ⟨busy, done, err, wign, code⟩ := st
  cases code <;> revert busy done err wign <;> decide

theorem Ctrl.toNat_word (c : Ctrl) : c.word.toNat = c.irqEn.toNat + 2 * c.forceDxt3.toNat := by
  obtain ⟨irqEn, forceDxt3⟩ := c
  revert irqEn forceDxt3
  decide

/-- Nothing but `STATUS` shows whether the block is busy. -/
theorem State.readReg_setBusy {r : Reg} (h : r ≠ .status) (b : Bool) :
    State.readReg { s with status := { s.status with busy := b } } r = s.readReg r := by
  cases r with
  | status => exact absurd rfl h
  | _ => rfl

end Sys2Proof.Machine
end

section
/-! The register file's obligations (10_state.md R22 to R51). -/

namespace Sys2Proof.Machine

/-- Settles O9: while busy a write to a register of class `RW` or `WS` is ignored with WIGN. -/
theorem busyRegisterWriteOnlySetsWign : Obligations.BusyRegisterWriteOnlySetsWign := by
  intro s off v hb hoff
  have hmem : off ∈ (Reg.ctrl :: .cmd :: Reg.inputs.tail).map (fun r => BitVec.ofNat 32 r.offset) := hoff
  obtain ⟨r, hr, rfl⟩ := List.mem_map.mp hmem
  have table : ∀ r ∈ Reg.ctrl :: .cmd :: Reg.inputs.tail, r.cl = .rw ∨ r.cl = .ws := by decide
  rw [hostStep_wr_reg, State.writeReg_busy hb (table r hr)]
  rfl

/-- Settles O10: the write lands in its own input register, and a register's offset is its own. -/
theorem inputRegisterReadsBack : Obligations.InputRegisterReadsBack := by
  intro s off v hb hoff
  obtain ⟨r, hr, rfl⟩ := exists_input_of_mem hoff
  have hcl := Reg.cl_of_mem_inputs hr
  have hctrl : BitVec.ofNat 32 r.offset = (0x004 : Word) ↔ r = .ctrl := by
    rw [← BitVec.toNat_inj, Reg.offset_toNat]
    exact Reg.offset_inj (r' := .ctrl)
  refine ⟨s.inp.write r v, ?_, ?_, fun off' hne => ?_⟩
  · rw [hostStep_wr_reg, State.writeReg_input hb hcl]
  · rw [Reg.offset_toNat, State.readOffset_of_ne_ro _ (by simp [hcl]), State.readReg_write_same s hcl]
    simp only [hctrl]
  · exact s.readOffset_write_other (Reg.offset_toNat r ▸ hne) v

/-- Settles O11: no offset of these holds a register that a write reaches. -/
theorem readOnlyAndReservedWritesAreIgnored : Obligations.ReadOnlyAndReservedWritesAreIgnored := by
  intro s off v h h4 hoff
  rw [hostStep_wr_offset s h h4, State.writeOffset_ignored s (hoff.imp_left (congrArg BitVec.toNat))]

/-- Settles O12: `Status.writeOneToClear` is the rule of R27 bit by bit. -/
theorem statusWriteClearsByOnes : Obligations.StatusWriteClearsByOnes := by
  intro s v
  have clear : ∀ b c : Bool, (b && !c) = if c then false else b := by decide
  rw [hostStep_wr_status, Status.writeOneToClear, clear, clear, clear]

/-- Settles O13: the four bits by `Status.getLsbD_word`, the fields above them from the word as a number. -/
theorem statusReadShowsItsFields : Obligations.StatusReadShowsItsFields := by
  intro s
  have hnum := s.status.toNat_word
  have h0 := s.status.busy.toNat_le
  have h1 := s.status.done.toNat_le
  have h2 := s.status.err.toNat_le
  have h3 := s.status.wign.toNat_le
  have hcode := s.status.errcode.code.isLt
  obtain ⟨hbusy, hdone, herr, hwign⟩ := s.status.getLsbD_word
  refine ⟨s.status.word, s.readOffset_of_ne_ro (r := .status) (by decide), hbusy, hdone, herr, hwign, by omega, by omega,
    ?_⟩
  rw [show s.status.word.toNat / 256 % 16 = s.status.errcode.code.toNat by omega]
  cases s.status.errcode <;> rfl

/-- Settles O14: each offset is that of its register, and while idle a register shows what it holds. -/
theorem registerMapReads : Obligations.RegisterMapReads := by
  refine ⟨fun s off w h h4 hw => hostStep_rd_stored s h h4 hw, fun s hb => ?_⟩
  have hread : ∀ r : Reg, s.readOffset r.offset = .stored (s.readReg r) := State.readOffset_idle hb
  have hctrl : s.inp.ctrl.word = BitVec.ofNat 32 (s.inp.ctrl.irqEn.toNat + 2 * s.inp.ctrl.forceDxt3.toNat) := by
    rw [← Ctrl.toNat_word, BitVec.ofNat_toNat, BitVec.setWidth_eq]
  have hstatus : s.status.word = BitVec.ofNat 32 (2 * s.status.done.toNat + 4 * s.status.err.toNat +
      8 * s.status.wign.toNat + 256 * s.status.errcode.code.toNat) := by
    have hnum := s.status.toNat_word
    rw [hb, Bool.toNat_false, Nat.zero_add] at hnum
    rw [← hnum, BitVec.ofNat_toNat, BitVec.setWidth_eq]
  refine ⟨hread .id, hctrl ▸ hread .ctrl, hread .cmd, hstatus ▸ hread .status, ?_, ?_, hread .width, hread .height,
    hread .pfFlags, hread .rgbBitCount, hread .rMask, hread .gMask, hread .bMask, hread .aMask, hread .fourcc,
    hread .srcLen, hread .arg0, hread .arg1, hread .diag0, hread .diag1, hread .blocksDone, hread .resultRgba,
    hread .accLo, hread .accHi, fun k => hread (.pal k), hread .apalLo, hread .apalHi, hread .capSrcBytes,
    hread .capRasterPixels, fun t => hread (.texel t), fun _ => s.readOffset_reserved⟩
  · refine (hread .cls).trans (congrArg ReadValue.stored ?_)
    simp only [State.readReg]
    cases s.out.cls <;> rfl
  · refine (hread .route).trans (congrArg ReadValue.stored ?_)
    simp only [State.readReg]
    cases s.out.route <;> rfl

/-- Settles O15: a result register is of class `RO`, and the value any other shows does not depend on BUSY. -/
theorem busyResultReadIsAnyValue : Obligations.BusyResultReadIsAnyValue := by
  intro s off hb h4 hlt
  refine ⟨fun ⟨h1, h2, h78, h7C⟩ => ?_, fun hoff hstatus => ?_⟩
  · obtain ⟨r, hr, hcl⟩ := Reg.ofOffset_result h4 h1 h2 (fun h => h78 (BitVec.eq_of_toNat_eq h))
      (fun h => h7C (BitVec.eq_of_toNat_eq h))
    have hany : s.readOffset off.toNat = .anyValue := by
      rw [← Reg.offset_of_ofOffset hr]
      simp [hb, hcl]
    rw [hostStep_rd_reg s off hlt h4, hany, State.observeValue_anyValue32]
  · cases hr : Reg.ofOffset off.toNat with
    | none =>
      exact ⟨0, by simp [State.readOffset, hr], hostStep_rd_stored s hlt h4 (by simp [State.readOffset, hr])⟩
    | some r =>
      have hoffset := Reg.offset_of_ofOffset hr
      have hcl : r.cl ≠ .ro := by
        refine Reg.cl_ne_ro_of_offset (hoffset ▸ ?_)
        have hlt := hoffset ▸ r.offset_lt
        rcases hoff with h | h | rfl | rfl
        · exact .inl h
        · omega
        · exact .inr (.inl rfl)
        · exact .inr (.inr rfl)
      have hne : r ≠ .status := fun h => hstatus (BitVec.eq_of_toNat_eq (hoffset.symm.trans (h ▸ rfl)))
      refine ⟨s.readReg r, ?_, hostStep_rd_stored s hlt h4 (hoffset ▸ s.readOffset_of_ne_ro hcl)⟩
      rw [← hoffset, State.readOffset_of_ne_ro _ hcl, s.readReg_setBusy hne]

/-- Settles O21: every register but the constants holds 0 after power-on reset. -/
theorem resetStateRegisters : Obligations.ResetStateRegisters := by
  refine ⟨State.readOffset_of_ne_ro _ (r := .id) (by decide), fun off _ h0 h78 h7C => ?_, rfl, rfl⟩
  cases hr : Reg.ofOffset off with
  | none => simp [State.readOffset, hr]
  | some r =>
    obtain rfl := Reg.offset_of_ofOffset hr
    rw [State.readOffset_idle rfl]
    refine congrArg ReadValue.stored ?_
    cases r with
    | id => exact absurd rfl h0
    | capSrcBytes => exact absurd rfl h78
    | capRasterPixels => exact absurd rfl h7C
    | pal k => revert k; decide
    | texel t => revert t; decide
    | _ => rfl

end Sys2Proof.Machine
end

section
/-! What commands and steps leave alone (10_state.md R23, R35, R45, R49, R53). -/

namespace Sys2Proof.Machine

variable {s t : State}

/-- A command's own frame: the result registers, STATUS, `pending` and RASTER are all it can change. -/
theorem exec_frame {i : Instr} (h : exec i s = .next t) :
    t = { s with out := t.out, status := t.status, pending := none, raster := t.raster } := by
  cases exec_ends h with
  | error _ _ _ _ _ ht | complete _ _ _ _ ht => rw [ht]; rfl

theorem exec_done {i : Instr} (h : exec i s = .next t) : t.status.done = true := by
  cases exec_ends h with
  | error _ _ _ _ _ ht | complete _ _ _ _ ht => rw [ht]; rfl

/-- The data a command writes, whichever way it ends (R53). -/
theorem exec_writes {i : Instr} (h : exec i s = .next t) :
    (∃ o, MayWrite i s.out o ∧ t.out = { o with diag0 := t.out.diag0, diag1 := t.out.diag1 }) ∧
      RasterWritten i s t.raster := by
  cases exec_ends h with
  | error o _ hw _ _ ht => exact ⟨⟨o, hw, ht ▸ rfl⟩, ht ▸ .refl i s⟩
  | complete o m hw hm ht => exact ⟨⟨o, hw, ht ▸ rfl⟩, ht ▸ hm⟩

/-- Settles O49: inputs, CMD, SRC, parameters and `env` lie outside `exec_frame`. -/
theorem commandsKeepTheirInputs : Obligations.CommandsKeepTheirInputs := by
  intro i s t h
  rw [exec_frame h]
  exact ⟨rfl, rfl, rfl, rfl, fun _ => rfl, rfl⟩

/-- Settles O50: the write sets of `MayWrite` and `RasterWritten`, read off byte by byte for RASTER. -/
theorem commandWriteSets : Obligations.CommandWriteSets := by
  intro i s t h
  obtain ⟨⟨o, hw, ho⟩, hm⟩ := exec_writes h
  have henv : t.env.epoch = s.env.epoch := by rw [exec_frame h]
  have hbyte : ∀ a, t.raster.get a = s.raster.get a → t.rasterByte a = s.rasterByte a := fun a ha => by
    simp only [State.rasterByte, ha, henv]
  rw [ho]
  exact ⟨hw.cls, hw.route, hw.blocksDone, hw.pixel, hw.pal, hw.apal, hw.texel,
    fun hi a => hbyte a (by rw [hm.only hi]), fun a ha => hbyte a (hm.beyond a ha)⟩

/-- Settles O24: `State.irq` is the conjunction by definition; the rest is what each step does to its two operands. -/
theorem irqFollowsDoneAndEnable : Obligations.IrqFollowsDoneAndEnable := by
  refine ⟨fun _ => rfl, rfl, fun i s => ?_, fun s v => ⟨_, hostStep_wr_status s v, ?_, ?_⟩, fun s v hb => ⟨?_, ?_⟩⟩
  · obtain ⟨t, h⟩ := exec_next i s
    have hinp : t.inp = s.inp := by rw [exec_frame h]
    exact ⟨t, h, by simp [State.irq, hinp, exec_done h]⟩
  · intro hv
    simp only [State.irq, Status.writeOneToClear_done, hv, Bool.not_true, Bool.and_false]
  · intro hv
    simp only [State.irq, Status.writeOneToClear_done, hv, Bool.not_false, Bool.and_true]
  · refine ⟨_, (hostStep_wr_reg s .ctrl v).trans (congrArg _ (State.writeReg_input hb rfl v)), ?_, ?_⟩
    · intro hv
      simp only [State.irq, Inputs.write_ctrl, if_true, Ctrl.ofWord, hv, Bool.false_and]
    · intro hv
      simp only [State.irq, Inputs.write_ctrl, if_true, Ctrl.ofWord, hv, Bool.true_and]
  · exact ⟨_, hostStep_wr_cmd hb v, by simp [State.irq]⟩

theorem engineStep_params {v : Word} (h : engineStep v s = .next t) : t.params = s.params := by
  rcases engineStep_cases h with ⟨-, rfl⟩ | ⟨i, -, hi⟩
  · rfl
  · rw [exec_frame hi]

theorem step_params (h : step s = .next t) : t.params = s.params := by
  cases step_effect h with
  | idle _ _ ht => rw [ht]
  | host _ _ _ _ _ ht => exact (hostStep_params ht).trans rfl
  | engine _ _ _ ht => exact (engineStep_params ht).trans rfl

/-- Settles O55: the constants are of class `CONST`, and the parameters they show never change (`step_params`). -/
theorem constantsNeverChange : Obligations.ConstantsNeverChange := by
  have hread : ∀ (s : State) (r : Reg), r.cl = .const → s.readOffset r.offset = .stored (s.readReg r) :=
    fun s r hr => s.readOffset_of_ne_ro (by simp [hr])
  refine ⟨fun s => ⟨hread s .id rfl, hread s .capSrcBytes rfl, hread s .capRasterPixels rfl⟩, fun s off v hoff => ?_,
    fun _ _ => step_params⟩
  have hmem : off ∈ [Reg.id, .capSrcBytes, .capRasterPixels].map (fun r => BitVec.ofNat 32 r.offset) := hoff
  obtain ⟨r, hr, rfl⟩ := List.mem_map.mp hmem
  have table : ∀ r ∈ [Reg.id, .capSrcBytes, .capRasterPixels], r.cl = .const := by decide
  rw [hostStep_wr_reg, State.writeReg_ignored s (.inr (table r hr))]

end Sys2Proof.Machine
end

section
/-! SUPPORT. A command has the same end in two states that agree on its inputs and on what it may leave as it was
(30_encoding.md R84). -/

namespace Sys2Proof.Machine

variable {s t : State}

theorem sameEnd_raise (ho : s.out = t.out) (hr : s.raster = t.raster) (e : CmdError) :
    SameEnd s t (.next (s.raise e)) (.next (t.raise e)) :=
  endCommand_congr (l := [some e]) (f := id) (g := id) ho hr rfl rfl rfl (fun h => by cases h)

theorem sameEnd_decodeSurface (v : Variant) (hp : s.params = t.params) (ho : s.out = t.out) (hr : s.raster = t.raster)
    (hs : SameSize s t) (h : SameSrc s t) :
    SameEnd s t (endCommand s (surfaceChecks s) (decodeSurface v)) (endCommand t (surfaceChecks t) (decodeSurface v)) := by
  refine endCommand_congr ho hr ?_ (decodeSurface_status s v) (decodeSurface_status t v) fun _ => ?_
  · simp only [surfaceChecks, checkSrcLen_congr hp h.1, checkRaster_congr hp hs]
  · obtain ⟨hraster, hblocks⟩ := decodeSurface_congr v hs hr h
    refine ⟨?_, hraster⟩
    rw [decodeSurface_out s v, hblocks, ho, ← decodeSurface_out t v]

/-- A payload that passes UNPACK_SURFACE's checks holds whole-byte pixels, all of them below `SRC_LEN` (R134). -/
theorem payload_of_unpackChecks (h : firstError (unpackChecks s) = none) :
    ∃ n, s.inp.rgbBitCount.toNat = 8 * n ∧ s.w * n * s.h ≤ s.inp.srcLen.toNat := by
  simp only [firstError_eq_none, unpackChecks, List.mem_cons, List.not_mem_nil, or_false, forall_eq_or_imp,
    forall_eq] at h
  obtain ⟨hwidth, -, -, hpayload⟩ := h
  have hbpp : s.inp.rgbBitCount.toNat = 8 * (s.inp.rgbBitCount.toNat / 8) := by
    simp only [checkWidth, validBpp, Bool.and_eq_true, beq_iff_eq, decide_eq_true_eq, ite_eq_left_iff, reduceCtorEq,
      imp_false, not_not] at hwidth
    omega
  refine ⟨_, hbpp, ?_⟩
  rw [checkPayload, hbpp, pitch_bytes] at hpayload
  simpa using hpayload

theorem sameEnd_unpackSurface (hp : s.params = t.params) (ho : s.out = t.out) (hr : s.raster = t.raster)
    (hs : SameSize s t) (hb : s.inp.rgbBitCount = t.inp.rgbBitCount) (hm : SameMasks s t) (h : SameSrc s t) :
    SameEnd s t (endCommand s (unpackChecks s) unpackSurface) (endCommand t (unpackChecks t) unpackSurface) := by
  refine endCommand_congr ho hr ?_ (unpackSurface_status s) (unpackSurface_status t) fun hc => ⟨?_, ?_⟩
  · simp only [unpackChecks, hb, checkSrcLen_congr hp h.1, checkRaster_congr hp hs, checkPayload_congr hb h.1 hs]
  · rw [unpackSurface_out, unpackSurface_out, ho]
  · obtain ⟨n, hn, hlen⟩ := payload_of_unpackChecks hc
    exact unpackSurface_congr hs hr hb hm h hn hlen

theorem blockChecks_congr (v : Variant) (hp : s.params = t.params) (ha : s.inp.arg0 = t.inp.arg0) (h : SameSrc s t) :
    blockChecks v s = blockChecks v t := by
  simp only [blockChecks, checkSrcLen_congr hp h.1, checkRead_congr h.1, ha]

theorem block_le_of_checks {v : Variant} (h : firstError (blockChecks v s) = none) :
    s.inp.arg0.toNat + v.blockSize ≤ s.inp.srcLen.toNat := read_le_of_checks h (by simp [blockChecks])

theorem unpackTo_congr (ho : s.out = t.out) (hm : SameMasks s t) (h : SameSrc s t) {off w : Nat}
    (hb : off + ceilDiv w 8 ≤ s.inp.srcLen.toNat) : (unpackTo off w s).out = (unpackTo off w t).out := by
  obtain ⟨hacc, hcolor⟩ := unpack_congr h hm hb
  rw [hacc] at hcolor
  simp only [unpackTo, State.setPixel_out, ho, hcolor, hacc]

/-- ALPHA_PALETTE's anchors are the two bytes of `ARG0`'s bits 15:0 (R86). -/
theorem alphaArgs_congr (h : s.inp.arg0.extractLsb' 0 16 = t.inp.arg0.extractLsb' 0 16) :
    alphaArg0 s = alphaArg0 t ∧ alphaArg1 s = alphaArg1 t := by
  have byte : ∀ (u : State) (k : Nat), k ≤ 8 →
      u.inp.arg0.extractLsb' k 8 = (u.inp.arg0.extractLsb' 0 16).extractLsb' k 8 := fun u k hk => by
    rw [BitVec.extractLsb'_extractLsb'_of_le (by omega)]
  exact ⟨by rw [alphaArg0, byte s 0 (by omega), h, ← byte t 0 (by omega), alphaArg0],
    by rw [alphaArg1, byte s 8 (by omega), h, ← byte t 8 (by omega), alphaArg1]⟩

theorem sameEnd_decode (hp : s.params = t.params) (ho : s.out = t.out) (hr : s.raster = t.raster)
    (h : AgreeOnInputs .decode s t) : SameEnd s t (execDecode s) (execDecode t) := by
  obtain ⟨hs, hf, hb, hm, hfourcc, hforce, hsrc⟩ := h
  have hclass : classOf s = classOf t := by simp only [classOf, hp, hf, hb]
  have hcheck : checkClass s = checkClass t := by simp only [checkClass, hclass, hf, hb]
  have hout : (decodeStart s).out = (decodeStart t).out := by simp only [decodeStart_eq, ho, hclass]
  have hroute : ∀ r, ((decodeStart s).setRoute r).out = ((decodeStart t).setRoute r).out := fun r => by
    rw [State.setRoute_out, State.setRoute_out, hout]
  unfold execDecode
  rw [← hcheck, ← hf]
  split
  · exact sameEnd_raise hout hr _
  · split
    · unfold decodeCompressed
      rw [show (decodeStart t).inp.fourcc = (decodeStart s).inp.fourcc from hfourcc.symm,
        show (decodeStart t).inp.ctrl.forceDxt3 = (decodeStart s).inp.ctrl.forceDxt3 from hforce.symm]
      split
      · exact sameEnd_raise hout hr _
      · exact sameEnd_decodeSurface (s := (decodeStart s).setRoute _) (t := (decodeStart t).setRoute _) _ hp (hroute _)
          hr hs hsrc
    · exact sameEnd_unpackSurface (s := (decodeStart s).setRoute _) (t := (decodeStart t).setRoute _) hp (hroute _)
        hr hs hb hm hsrc

/-- What a command writes depends on the inputs R84 lists for it, on the parameters, and on what it may leave as it
was; how it changes STATUS does not depend on STATUS. -/
theorem exec_congr {i : Instr} (hp : s.params = t.params) (ho : s.out = t.out) (hr : s.raster = t.raster)
    (h : AgreeOnInputs i s t) : SameEnd s t (exec i s) (exec i t) := by
  cases i with
  | nop => exact endCommand_congr (l := []) (f := id) (g := id) ho hr rfl rfl rfl fun _ => ⟨ho, hr⟩
  | probe =>
    obtain ⟨hf, hb⟩ := h
    have hclass : classOf s = classOf t := by simp only [classOf, hp, hf, hb]
    have hout : (s.setCls (classOf s)).out = (t.setCls (classOf t)).out := by
      rw [State.setCls_out, State.setCls_out, ho, hclass]
    refine endCommand_congr (s := s.setCls (classOf s)) (t := t.setCls (classOf t)) (f := id) (g := id) hout hr ?_ rfl
      rfl fun _ => ⟨hout, hr⟩
    simp only [checkClass, hclass, hf, hb]
  | decode => exact sameEnd_decode hp ho hr h
  | decodeDxt1 => exact sameEnd_decodeSurface .dxt1 hp ho hr h.1 h.2
  | decodeDxt3 => exact sameEnd_decodeSurface .dxt3 hp ho hr h.1 h.2
  | decodeDxt5 => exact sameEnd_decodeSurface .dxt5 hp ho hr h.1 h.2
  | blockDxt1 =>
    obtain ⟨ha, h⟩ := h
    refine endCommand_congr ho hr (blockChecks_congr .dxt1 hp ha h) rfl rfl fun hc => ⟨?_, hr⟩
    simp only [State.storeBlock, State.setPal_out, State.setTexels_out, ho, ← ha,
      h.decodeBlockDxt1 (block_le_of_checks hc)]
  | blockDxt3 =>
    obtain ⟨ha, h⟩ := h
    refine endCommand_congr ho hr (blockChecks_congr .dxt3 hp ha h) rfl rfl fun hc => ⟨?_, hr⟩
    simp only [State.storeBlock, State.setPal_out, State.setTexels_out, ho, ← ha,
      h.decodeBlockDxt3 (block_le_of_checks hc)]
  | blockDxt5 =>
    obtain ⟨ha, h⟩ := h
    simp only [exec, execBlockDxt5]
    refine endCommand_congr ho hr (blockChecks_congr .dxt5 hp ha h) rfl rfl fun hc => ⟨?_, hr⟩
    simp only [State.storeBlock, State.storeApal, State.setApal_out, State.setPal_out, State.setTexels_out, ho, ← ha,
      h.decodeBlockDxt5 (block_le_of_checks hc)]
  | colorPalette =>
    refine endCommand_congr (l := []) ho hr rfl rfl rfl fun _ => ⟨?_, hr⟩
    have ha : s.inp.arg0 = t.inp.arg0 := h
    simp only [State.setPal_out, ho, colorArg0, colorArg1, ha]
  | alphaPalette =>
    refine endCommand_congr (l := []) ho hr rfl rfl rfl fun _ => ⟨?_, hr⟩
    obtain ⟨h0, h1⟩ := alphaArgs_congr h
    simp only [State.storeApal, State.setApal_out, ho, h0, h1]
  | unpackRaw =>
    obtain ⟨ha, hw, hm, h⟩ := h
    refine endCommand_congr ho hr ?_ rfl rfl fun hc => ⟨?_, hr⟩
    · simp only [ha, hw, checkSrcLen_congr hp h.1, checkRead_congr h.1]
    · rw [← ha, ← hw]
      exact unpackTo_congr ho hm h (read_le_of_checks hc (by simp))
  | unpackPixel =>
    obtain ⟨hx, hy, hs, hb, hm, h⟩ := h
    have hoff : argPixelOffset s = argPixelOffset t := by simp only [argPixelOffset, State.w, hs.1, hb, hx, hy]
    refine endCommand_congr ho hr ?_ rfl rfl fun hc => ⟨?_, hr⟩
    · simp only [hx, hy, hb, hoff, checkPixel_congr hs, checkSrcLen_congr hp h.1, checkRead_congr h.1]
    · rw [← hoff, ← hb]
      exact unpackTo_congr ho hm h (read_le_of_checks hc (by simp))
  | unpackSurface =>
    obtain ⟨hs, hb, hm, h⟩ := h
    exact sameEnd_unpackSurface hp ho hr hs hb hm h

/-- Of the inputs a command reads the input registers and the bytes of SRC, and nothing else. -/
theorem agreeOnInputs_of_eq (i : Instr) (hi : s.inp = t.inp) (hb : s.srcByte = t.srcByte) : AgreeOnInputs i s t := by
  have hsrc : SameSrc s t := ⟨congrArg _ hi, fun _ _ => congrFun hb _⟩
  cases i <;> simp [AgreeOnInputs, SameSize, SameMasks, hi, hsrc]

theorem engineStep_congr (v : Word) (hp : s.params = t.params) (ho : s.out = t.out) (hr : s.raster = t.raster)
    (hi : s.inp = t.inp) (hb : s.srcByte = t.srcByte) : SameEnd s t (engineStep v s) (engineStep v t) := by
  unfold engineStep
  split
  · exact sameEnd_raise ho hr _
  · exact exec_congr hp ho hr (agreeOnInputs_of_eq _ hi hb)

end Sys2Proof.Machine
end

section
/-! What the host does in the busy window does not reach the command (70_reset_and_hazards.md R235). -/

namespace Sys2Proof.Machine

variable {s t u : State}

theorem engineStep_frame {v : Word} (h : engineStep v s = .next t) :
    t = { s with out := t.out, status := t.status, pending := none, raster := t.raster } := by
  rcases engineStep_cases h with ⟨-, rfl⟩ | ⟨i, -, hi⟩
  · rfl
  · exact exec_frame hi

/-- While busy a host operation other than a reset changes WIGN and the model's own `env` alone (R46, R75): a write to
`STATUS` clears nothing else, since DONE and ERR are clear. -/
theorem hostStep_while_busy {op : HostOp} (hi : Inv s) (hb : s.status.busy = true) (hop : op ≠ .reset)
    (h : hostStep op s = .next u) :
    u = { s with status := { s.status with wign := u.status.wign }, env := u.env } ∧ u.env.epoch = s.env.epoch := by
  obtain ⟨hdone, herr, -⟩ := hi.running hb
  have busy_false : s.status.busy ≠ false := by simp [hb]
  cases hostStep_effect h with
  | read _ _ hblock _ =>
    refine ⟨?_, hblock.epoch⟩
    rw [hblock.block]
  | waitDone _ _ | waitAgain _ _ => exact ⟨rfl, rfl⟩
  | write _ _ hw =>
    cases hw with
    | ignored | wign _ => exact ⟨rfl, rfl⟩
    | clear v =>
      refine ⟨?_, rfl⟩
      simp only [Status.writeOneToClear, hdone, herr, Bool.false_and]
    | input hidle _ | start hidle _ | srcByte hidle _ _ _ | srcWord hidle _ _ _ => exact absurd hidle busy_false
  | reset hreset => exact absurd hreset hop

/-- Settles O59: after `hostStep_while_busy` the two states agree on all a command reads, so `engineStep_congr` gives
the same registers and raster, and STATUS is changed alike. -/
theorem commandUnaffectedByHostWhileBusy : Obligations.CommandUnaffectedByHostWhileBusy := by
  intro s u op v hi hpend hop h
  obtain ⟨hu, hepoch⟩ := hostStep_while_busy hi (by simp [hi.busyPending, hpend]) hop h
  generalize u.status.wign = wign, u.env = env at hu hepoch
  subst hu
  obtain ⟨t, t', ht, ht', hout, hraster, -, -, f, hf, hst, hst'⟩ :=
    engineStep_congr (s := s) (t := { s with status := { s.status with wign := wign }, env := env }) v rfl rfl rfl rfl
      (srcByte_congr rfl hepoch.symm)
  refine ⟨t, t', ht, ht', hpend, ?_⟩
  have hstatus : t'.status = { t.status with wign := t'.status.wign } := by
    rw [hst, hst']
    rcases hf with rfl | ⟨e, rfl⟩ <;> rfl
  rw [engineStep_frame ht', engineStep_frame ht, ← hout, ← hraster, ← hstatus]

end Sys2Proof.Machine
end

section
/-! SUPPORT. The host's accesses by window (20_memory.md R61 to R67): where each access goes or why it stops, and what
a byte or a word of SRC and of RASTER is after it. -/

namespace Sys2Proof.Machine

variable {s : State} {p : Params} {a v : Word} {b : Byte} {i : Nat} {win : Window} {e : Fault}

/-! ## An access that has a window is answered -/

theorem hostStep_wr (h : window32 s.params a = .ok win) (v : Word) :
    hostStep (.wr a v) s = .next (s.write32 win v) := by simp only [hostStep, h]

theorem hostStep_wrb (h : window8 s.params a = .ok win) (b : Byte) :
    hostStep (.wrb a b) s = .next (s.write8 win b) := by simp only [hostStep, h]

theorem hostStep_rd (h : window32 s.params a = .ok win) :
    hostStep (.rd a) s = .next (s.observeValue a 0xFFFFFFFF (s.read32 win)) := by simp only [hostStep, h]

theorem hostStep_rdb (h : window8 s.params a = .ok win) :
    hostStep (.rdb a) s = .next (s.observeValue a 0xFF (s.read8 win)) := by simp only [hostStep, h]

/-! ## An access that has none stops the run -/

theorem hostStep_fault32 (h : window32 s.params a = .error e) (v : Word) :
    hostStep (.rd a) s = .fault e ∧ hostStep (.wr a v) s = .fault e := by simp only [hostStep, h, and_self]

theorem hostStep_fault8 (h : window8 s.params a = .error e) (b : Byte) :
    hostStep (.rdb a) s = .fault e ∧ hostStep (.wrb a b) s = .fault e := by simp only [hostStep, h, and_self]

theorem window32_unmapped (h : windowOf p a.toNat = none) : window32 p a = .error (.unmapped a) := by
  simp only [window32, h]

theorem window8_unmapped (h : windowOf p a.toNat = none) : window8 p a = .error (.unmapped a) := by
  simp only [window8, h]

theorem window8_reg (h : a.toNat < 0x1000) : window8 p a = .error (.unsupportedWidth 8 a) := by
  simp only [window8, windowOf_reg p h]

/-- The address of a misaligned word decides before its last bytes do (log 8). -/
theorem window32_misaligned (h : windowOf p a.toNat ≠ none) (h4 : a.toNat % 4 ≠ 0) :
    window32 p a = .error (.misaligned a) := by
  obtain ⟨win, hwin⟩ := Option.ne_none_iff_exists'.mp h
  simp only [window32, hwin, if_pos h4]

/-- Log 6: an aligned word that begins in SRC and ends beyond it. -/
theorem window32_crossing (ha : a.toNat = 0x01000000 + i) (h : i < p.srcBytes) (hend : p.srcBytes < i + 4)
    (h4 : i % 4 = 0) : window32 p a = .error (.unmapped a) := by
  unfold window32
  rw [ha, windowOf_src p h]
  simp only [if_neg (show ¬ (0x01000000 + i) % 4 ≠ 0 by omega), if_neg (show ¬ i + 4 ≤ p.srcBytes by omega)]

/-- An address in one of the three ranges lies in a window, whatever the parameters (R61, R62, R63). -/
theorem windowOf_ne_none {n : Nat} (h : n < 0x1000 ∨ (0x01000000 ≤ n ∧ n < 0x01000000 + p.srcBytes) ∨
    (0x10000000 ≤ n ∧ n < 0x10000000 + 4 * p.rasterPixels)) : windowOf p n ≠ none := by
  unfold windowOf srcBase rasterBase
  split_ifs with hreg hsrc hraster
  · exact Option.some_ne_none _
  · exact Option.some_ne_none _
  · exact Option.some_ne_none _
  · exact absurd h (by simp only [hreg, hsrc, hraster, or_self, not_false_eq_true])

/-! ## Addresses of the SRC and RASTER windows -/

theorem toNat_srcAddr (hp : p.wf = true) (hi : i < p.srcBytes) :
    (BitVec.ofNat 32 (0x01000000 + i)).toNat = 0x01000000 + i := by
  obtain ⟨-, hsrc, -, -⟩ := params_bounds hp
  exact Nat.mod_eq_of_lt (by omega)

theorem toNat_rasterAddr (hp : p.wf = true) (hi : i < 4 * p.rasterPixels) :
    (BitVec.ofNat 32 (0x10000000 + i)).toNat = 0x10000000 + i := by
  obtain ⟨-, -, -, hraster⟩ := params_bounds hp
  exact Nat.mod_eq_of_lt (by omega)

/-! ## Writes -/

theorem State.write8_src_idle (hb : s.status.busy = false) (i : Nat) (b : Byte) :
    s.write8 (.src i) b = s.setSrcByte i b := by simp [State.write8, hb]

theorem State.write32_src_idle (hb : s.status.busy = false) (i : Nat) (v : Word) :
    s.write32 (.src i) v = s.setSrcWord i v := by simp [State.write32, hb]

theorem State.write8_src_busy (hb : s.status.busy = true) (i : Nat) (b : Byte) :
    s.write8 (.src i) b = s.ignoreWrite := by simp [State.write8, hb]

theorem State.write32_src_busy (hb : s.status.busy = true) (i : Nat) (v : Word) :
    s.write32 (.src i) v = s.ignoreWrite := by simp [State.write32, hb]

/-! ## Reads -/

theorem State.read8_raster_idle (hb : s.status.busy = false) (i : Nat) :
    s.read8 (.raster i) = .stored ((s.rasterByte i).setWidth 32) := by simp [State.read8, hb]

theorem State.read32_raster_idle (hb : s.status.busy = false) (q : Nat) :
    s.read32 (.raster (4 * q)) = .stored (s.rasterWord q) := by simp [State.read32, hb]

theorem State.read8_raster_busy (hb : s.status.busy = true) (i : Nat) : s.read8 (.raster i) = .anyValue := by
  simp [State.read8, hb]

theorem State.read32_raster_busy (hb : s.status.busy = true) (i : Nat) : s.read32 (.raster i) = .anyValue := by
  simp [State.read32, hb]

/-- An 8-bit read of any value takes the low byte of the next free one (R66, R71; log 3). -/
theorem State.observeValue_anyValue8 (s : State) (a : Word) : s.observeValue a 0xFF .anyValue =
    { s with env := { s.env with
        draws := s.env.draws + 1
        reads := ⟨a, ((Config.busyRead s.env.draws).setWidth 8).setWidth 32⟩ :: s.env.reads } } := by
  have low : ∀ x : Word, x &&& 0xFF = (x.setWidth 8).setWidth 32 := fun x => by
    apply BitVec.eq_of_toNat_eq
    rw [BitVec.toNat_and, show (0xFF : Word).toNat = 2 ^ 8 - 1 from rfl, Nat.and_two_pow_sub_one_eq_mod,
      BitVec.toNat_setWidth, BitVec.toNat_setWidth]
    omega
  rw [State.observeValue, low]
  rfl

/-! ## Bytes and words -/

/-- A word is determined by its four byte lanes (R66). -/
theorem eq_of_byteLanes {x y : Word} (h : ∀ k, k < 4 → byteLane x k = byteLane y k) : x = y := by
  rw [← byteLanes_append x, ← byteLanes_append y, h 0 (by decide), h 1 (by decide), h 2 (by decide), h 3 (by decide)]

/-- The word the host wrote to SRC is the word it reads back. -/
theorem srcRead_setSrcWord (s : State) (i : Nat) (v : Word) :
    BitVec.ofNat 32 ((s.setSrcWord i v).srcRead i 4) = v :=
  eq_of_byteLanes fun k hk => by rw [byteLane_srcRead _ _ hk, srcByte_setSrcWord_lane _ _ _ hk]

/-- The lanes of four bytes put together, the last one lowest. -/
theorem extractLsb'_append_bytes (b3 b2 b1 b0 : Byte) :
    (b3 ++ b2 ++ b1 ++ b0).extractLsb' 0 8 = b0 ∧ (b3 ++ b2 ++ b1 ++ b0).extractLsb' 8 8 = b1 ∧
      (b3 ++ b2 ++ b1 ++ b0).extractLsb' 16 8 = b2 ∧ (b3 ++ b2 ++ b1 ++ b0).extractLsb' 24 8 = b3 := by
  refine ⟨?_, ?_, ?_, ?_⟩
  · rw [BitVec.extractLsb'_append_eq_right]
  · rw [BitVec.extractLsb'_append_eq_of_le (by decide), BitVec.extractLsb'_append_eq_right]
  · rw [BitVec.extractLsb'_append_eq_of_le (by decide), BitVec.extractLsb'_append_eq_of_le (by decide),
      BitVec.extractLsb'_append_eq_right]
  · rw [BitVec.extractLsb'_append_eq_of_le (by decide), BitVec.extractLsb'_append_eq_of_le (by decide),
      BitVec.extractLsb'_append_eq_of_le (by decide), BitVec.extractLsb'_eq_self]

/-- Byte lane `k` of pixel word `q` is byte `4*q + k` of RASTER (R63, R66). -/
theorem byteLane_rasterWord (s : State) (q : Nat) {k : Nat} (hk : k < 4) :
    byteLane (s.rasterWord q) k = s.rasterByte (4 * q + k) := by
  obtain ⟨h0, h1, h2, h3⟩ := extractLsb'_append_bytes (s.rasterByte (4 * q + 3)) (s.rasterByte (4 * q + 2))
    (s.rasterByte (4 * q + 1)) (s.rasterByte (4 * q))
  obtain rfl | rfl | rfl | rfl : k = 0 ∨ k = 1 ∨ k = 2 ∨ k = 3 := by omega
  · exact h0
  · exact h1
  · exact h2
  · exact h3

end Sys2Proof.Machine
end

section
/-! The obligations about the memory windows (20_memory.md R61 to R75). -/

namespace Sys2Proof.Machine

/-- Settles O16: the access goes to `SRC[i]`, where a write is `setSrcByte` or `setSrcWord` while idle and ignored while
busy; a word is read back by its byte lanes. -/
theorem srcWindowWriteThenRead : Obligations.SrcWindowWriteThenRead := by
  rintro s a v b i hp hi rfl
  have ha := toNat_srcAddr hp hi
  have hbyte := window8_src ha hi
  have hword (h4 : i % 4 = 0) (hend : i + 4 ≤ s.params.srcBytes) := window32_src ha hend h4
  refine ⟨fun hb => ⟨?_, hostStep_rdb hbyte, fun h4 hend => ?_, fun h4 hend => ?_⟩, fun hb => ⟨?_, fun h4 hend => ?_⟩⟩
  · refine ⟨s.setSrcByte i b, ?_, ?_, fun j hj => ?_, rfl⟩
    · rw [hostStep_wrb hbyte, State.write8_src_idle hb]
    · rw [srcByte_setSrcByte, if_pos rfl]
    · rw [srcByte_setSrcByte, if_neg hj]
  · exact ⟨_, fun k hk => byteLane_srcRead s i hk, hostStep_rd (hword h4 hend)⟩
  · refine ⟨s.setSrcWord i v, ?_, fun k hk => srcByte_setSrcWord_lane s i v hk,
      fun j hj => srcByte_setSrcWord_other s i j v hj, rfl, ?_⟩
    · rw [hostStep_wr (hword h4 hend), State.write32_src_idle hb]
    · rw [hostStep_rd (s := s.setSrcWord i v) (hword h4 hend), State.read32, srcRead_setSrcWord]
      rfl
  · rw [hostStep_wrb hbyte, State.write8_src_busy hb]
    rfl
  · rw [hostStep_wr (hword h4 hend), State.write32_src_busy hb]
    rfl

/-- Settles O17: the access goes to byte `4*p + k` of RASTER; a write has no effect there, and a read shows the stored
byte or word while idle and any value while busy. -/
theorem rasterWindowIsReadOnly : Obligations.RasterWindowIsReadOnly := by
  rintro s a v b p k hp hpix hk rfl
  obtain ⟨-, hsrc, -, -⟩ := params_bounds hp
  have hword := window32_raster hsrc (toNat_rasterAddr (i := 4 * p) hp (by omega)) (by omega) (by omega)
  have hbyte := window8_raster hsrc (toNat_rasterAddr (i := 4 * p + k) hp (by omega)) (by omega)
  rw [← Nat.add_assoc, BitVec.ofNat_add] at hbyte
  refine ⟨hostStep_wr hword v, hostStep_wrb hbyte b, fun hb => ⟨?_, ?_⟩, fun hb => ⟨?_, ?_⟩⟩
  · rw [hostStep_rd hword, State.read32_raster_idle hb]
    rfl
  · rw [hostStep_rdb hbyte, State.read8_raster_idle hb, ← byteLane_rasterWord s p hk]
    rfl
  · rw [hostStep_rd hword, State.read32_raster_busy hb, State.observeValue_anyValue32]
  · rw [hostStep_rdb hbyte, State.read8_raster_busy hb, State.observeValue_anyValue8]

/-- Settles O18: an address outside the three windows has none, and a word that crosses the end of SRC has none. -/
theorem unmappedAccessStops : Obligations.UnmappedAccessStops := by
  intro s a v b
  refine ⟨fun hreg hsrc hraster => ?_, fun hlo hhi hend h4 => ?_⟩
  · have hnone := windowOf_unmapped s.params hreg hsrc hraster
    obtain ⟨hrd, hwr⟩ := hostStep_fault32 (window32_unmapped hnone) v
    exact ⟨hrd, hwr, hostStep_fault8 (window8_unmapped hnone) b⟩
  · obtain ⟨i, ha⟩ := Nat.exists_eq_add_of_le hlo
    exact hostStep_fault32 (window32_crossing ha (by omega) (by omega) (by omega)) v

/-- Settles O19: alignment is looked at in every window, and the register window admits words only. -/
theorem misalignedOrOddWidthAccessStops : Obligations.MisalignedOrOddWidthAccessStops := fun _ _ v b _ =>
  ⟨fun hmapped h4 => hostStep_fault32 (window32_misaligned (windowOf_ne_none hmapped) h4) v,
    fun hreg => hostStep_fault8 (window8_reg hreg) b, fun _ _ => rfl⟩

/-- Settles O20: of the effects a host step can have, those of a read and of a `wait` leave the block alone. -/
theorem hostReadsHaveNoSideEffect : Obligations.HostReadsHaveNoSideEffect := by
  intro s t op hop h
  cases hostStep_effect h with
  | read _ _ hsame _ => exact ⟨hsame.block, hsame.epoch, hsame.schedule⟩
  | waitDone _ _ | waitAgain _ _ => exact ⟨rfl, rfl, rfl⟩
  | write _ hwrite _ => rcases hop with ⟨a, rfl⟩ | ⟨a, rfl⟩ | rfl <;> simp at hwrite
  | reset hreset => rcases hop with ⟨a, rfl⟩ | ⟨a, rfl⟩ | rfl <;> cases hreset

end Sys2Proof.Machine
end

section
/-! The turn of the two agents (20_memory.md R72, 70_reset_and_hazards.md R234). -/

namespace Sys2Proof.Machine

variable {s : State} {op : HostOp} {rest : List HostOp}

theorem hostTurn_nil (h : s.env.script = []) : hostTurn s = .next s := by simp only [hostTurn, h]

theorem hostTurn_cons (h : s.env.script = op :: rest) :
    hostTurn s = hostStep op { s with env := { s.env with script := rest } } := by simp only [hostTurn, h]

theorem step_idle (hp : s.pending = none) : step s = hostTurn s := by simp only [step, turn, hp]

/-- A command is pending, and the schedule and the script both give the host a move. -/
theorem step_hostScheduled {v : Word} {sched : List Agent} (hp : s.pending = some v)
    (hsched : s.env.schedule = .host :: sched) (hs : s.env.script = op :: rest) :
    step s = hostTurn s.popSchedule := by
  have hhost : nextAgent s = .host := by simp only [nextAgent, hsched, hs]
  simp only [step, turn, hp, hhost]

/-- Settles O5: a step in which the host moves is its turn, and its turn is the first operation of the script. -/
theorem stepRunsTheHostInOrder : Obligations.StepRunsTheHostInOrder := by
  refine ⟨fun s op rest hp hs => ?_, fun s v op rest sched hp hsched hs => ?_, fun s hp hs => ?_⟩
  · rw [step_idle hp, hostTurn_cons hs]
  · rw [step_hostScheduled hp hsched hs, hostTurn_cons (s := s.popSchedule) hs]
    simp only [State.popSchedule, hsched, List.tail_cons]
  · rw [step_idle hp, hostTurn_nil hs]

end Sys2Proof.Machine
end

section
/-! The encoding of commands: the decoder is the inverse of the encoder (30_encoding.md R80, R81, R82). -/

namespace Sys2Proof

variable {w : Word} {i : Instr}

/-- Every row of the command map compares the whole word with its instruction's encoding. -/
theorem opRows_whole_word : ∀ r ∈ opRows, r.mask = BitVec.allOnes 32 ∧ r.value = encode r.instr := by decide

theorem OpRow.hits_iff {r : OpRow} (hr : r ∈ opRows) : r.hits w = true ↔ w = encode r.instr := by
  obtain ⟨hmask, hvalue⟩ := opRows_whole_word r hr
  rw [OpRow.hits, hmask, hvalue, BitVec.and_allOnes, beq_iff_eq]

theorem decode_encode (i : Instr) : decode (encode i) = some i := by cases i <;> decide

theorem decode_eq_some_iff : decode w = some i ↔ w = encode i := by
  constructor
  · intro h
    obtain ⟨r, hfind, rfl⟩ := Option.map_eq_some_iff.mp h
    have hhits := List.find?_some hfind
    exact (OpRow.hits_iff (List.mem_of_find?_eq_some hfind)).mp hhits
  · rintro rfl
    exact decode_encode i

/-- The two fields of an encoding as numbers: `RSV` is 0 and `OP` is the command's code (R80). -/
theorem eq_encode_iff : w = encode i ↔ w.toNat / 256 = 0 ∧ w.toNat % 256 = i.op.toNat := by
  have hencode : (encode i).toNat = i.op.toNat := by
    rw [encode, BitVec.toNat_append]
    simp
  have hop := i.op.isLt
  rw [BitVec.toNat_eq, hencode]
  omega

/-- Settles O1: `decode_eq_some_iff`, and the bytes of a word put together are the word. -/
theorem decodeAndEncodeAreInverse : Obligations.DecodeAndEncodeAreInverse := by
  refine ⟨fun w i => decode_eq_some_iff, fun i rest => ?_⟩
  have hword : wordOfBytes ((encode i).extractLsb' 0 8) ((encode i).extractLsb' 8 8) ((encode i).extractLsb' 16 8)
      ((encode i).extractLsb' 24 8) = encode i := Machine.byteLanes_append (encode i)
  rw [decodeBytes, hword, decode_encode]
  rfl

/-- Settles O2: decoding is inverse to encoding, and the listed code of each command is its `OP`. -/
theorem legalWordsAreTheTable : Obligations.LegalWordsAreTheTable := by
  intro w i
  rw [decode_eq_some_iff, eq_encode_iff]
  refine and_congr_right fun _ => ?_
  cases i <;> simp [Instr.op]

/-- Settles O3: each word is looked up in the command map. -/
theorem writtenOutWordsDecode : Obligations.WrittenOutWordsDecode := by
  unfold Obligations.WrittenOutWordsDecode
  decide

end Sys2Proof
end

section
/-! The single-block commands (43_dxt.md R170 to R177). -/

namespace Sys2Proof.Machine

variable {s : State}

/-- The checks of a single-block command pass when the block lies below `SRC_LEN` and the buffer inside SRC (R208). -/
theorem blockChecks_pass (v : Variant) (hlen : s.inp.srcLen.toNat ≤ s.params.srcBytes)
    (hblock : s.inp.arg0.toNat + v.blockSize ≤ s.inp.srcLen.toNat) : firstError (blockChecks v s) = none := by
  rw [blockChecks, checkSrcLen, if_neg (by omega), checkRead, if_neg (by omega)]
  rfl

/-- What a single-block command stores in `TEXEL0` to `TEXEL15` for the block at `off` (R175, R176, R177). -/
def texelWords (v : Variant) (s : State) (off : Nat) : Vector Word 16 :=
  tabulate 16 fun t => pack (blockTexels v s off)[t]

theorem texelWords_getElem (v : Variant) (s : State) (off : Nat) (t : Fin 16) :
    (texelWords v s off)[t] = texelWord v s off t.val :=
  (tabulate_getElem _ _ _ _).trans (pack_blockTexels v s off t)

/-- Settles O43: the checks pass, and each stored word is the spec's formula. -/
theorem blockDxt1Result : Obligations.BlockDxt1Result := by
  intro s hlen hblock
  refine ⟨palWords (blockPalette s _), texelWords .dxt1 s _, ?_, palWords_blockPalette s _, texelWords_getElem .dxt1 s _⟩
  rw [exec, execBlockDxt1, endCommand_pass (blockChecks_pass .dxt1 hlen hblock)]
  rfl

/-- Settles O44: as O43, with the endpoints 8 bytes into the block. -/
theorem blockDxt3Result : Obligations.BlockDxt3Result := by
  intro s hlen hblock
  refine ⟨palWords (blockPalette s _), texelWords .dxt3 s _, ?_, palWords_blockPalette s _, texelWords_getElem .dxt3 s _⟩
  rw [exec, execBlockDxt3, endCommand_pass (blockChecks_pass .dxt3 hlen hblock)]
  rfl

/-- Settles O45: as O44, and the two alpha palette words byte by byte. -/
theorem blockDxt5Result : Obligations.BlockDxt5Result := by
  intro s hlen hblock
  refine ⟨palWords (blockPalette s _), texelWords .dxt5 s _, apalLoWord (blockAlphaPalette s _),
    apalHiWord (blockAlphaPalette s _), ?_, palWords_blockPalette s _, texelWords_getElem .dxt5 s _,
    apalWords_blockAlphaPalette s _⟩
  rw [exec, execBlockDxt5, endCommand_pass (blockChecks_pass .dxt5 hlen hblock)]
  rfl

end Sys2Proof.Machine
end

section
/-! A command's effect depends on its inputs alone (30_encoding.md R84, 20_memory.md R69). -/

namespace Sys2Proof.Machine

/-- Two commands that end alike from equal STATUS have the same effect. -/
theorem SameEnd.sameEffect {s t : State} {o o' : Out} (h : SameEnd s t o o') (hst : s.status = t.status) :
    SameEffect o o' := by
  obtain ⟨u, u', hu, hu', hout, hraster, hpend, hpend', f, -, hf, hf'⟩ := h
  exact ⟨u, u', hu, hu', hout, by rw [hf, hf', hst], hpend.trans hpend'.symm, hraster⟩

/-- Settles O52: `exec_congr`, which asks less of STATUS and `pending`. -/
theorem commandsReadOnlyTheirInputs : Obligations.CommandsReadOnlyTheirInputs := by
  rintro i s t ⟨hparams, hout, hstatus, -, hraster⟩ h
  exact (exec_congr hparams hout hraster h).sameEffect hstatus

end Sys2Proof.Machine
end

section
/-! A `wait` in the busy window ends (30_encoding.md R104, 70_reset_and_hazards.md R234). -/

namespace Sys2Proof.Machine

variable {s t : State} {rest : List HostOp} {n : Nat}

theorem coreRun_succ {M : Host.Core} {s t : M.State} (h : M.step s = .next t) (k : Nat) :
    M.run (k + 1) s = M.run k t := by simp only [Host.Core.run, h]

theorem run_succ (h : step s = .next t) (k : Nat) : run (k + 1) s = run k t := coreRun_succ (M := core) h k

theorem run_one (h : step s = .next t) : run 1 s = .next t := run_succ h 0

theorem engineStep_next (v : Word) (s : State) : ∃ t, engineStep v s = .next t := by
  unfold engineStep
  split
  · exact ⟨_, rfl⟩
  · exact exec_next _ s

/-- The engine's step ends the command, illegal or legal (R203, R205, R206). -/
theorem engineStep_done {v : Word} (h : engineStep v s = .next t) : t.status.done = true := by
  rcases engineStep_cases h with ⟨-, rfl⟩ | ⟨i, -, hi⟩
  · rfl
  · exact exec_done hi

/-- A pending command with the engine to move (R234). -/
theorem step_engine {v : Word} (hp : s.pending = some v) (hm : EngineToMove s) :
    step s = engineStep v s.popSchedule := by
  cases hagent : nextAgent s with
  | engine => simp only [step, turn, hp, hagent]
  | host =>
    obtain ⟨op, rest, sched, hs, hsched⟩ := nextAgent_host hagent
    rcases hm with hm | hm
    · exact absurd (congrArg List.head? hsched) hm
    · exact absurd (hm.symm.trans hs) (List.cons_ne_nil op rest).symm

theorem hostStep_wait_done (h : s.status.done = true) :
    hostStep .wait s = .next (s.observe 0x00C s.status.word) := if_pos h

theorem hostStep_wait_again (h : ¬ s.status.done = true) :
    hostStep .wait s = .next ((s.observe 0x00C s.status.word).repeatOp .wait) := if_neg h

/-- The wait has ended after at most `n` steps from `s`, `rest` is left of the host's program, and the last read is of
a STATUS word with DONE set. -/
def WaitOver (rest : List HostOp) (n : Nat) (s : State) : Prop :=
  ∃ k t w, k ≤ n ∧ run k s = .next t ∧ t.env.script = rest ∧ t.env.reads.head? = some ⟨0x00C, w⟩ ∧ w.getLsbD 1 = true

theorem WaitOver.of_step (h : step s = .next t) (hw : WaitOver rest n t) : WaitOver rest (n + 1) s := by
  obtain ⟨k, u, w, hk, hrun, hread⟩ := hw
  exact ⟨k + 1, u, w, by omega, (run_succ h k).trans hrun, hread⟩

theorem WaitOver.mono {m : Nat} (h : WaitOver rest n s) (hnm : n ≤ m) : WaitOver rest m s := by
  obtain ⟨k, t, w, hk, hend⟩ := h
  exact ⟨k, t, w, hk.trans hnm, hend⟩

/-- The host's turn, with `wait` next and DONE set, is the end of the wait. -/
theorem WaitOver.of_hostTurn {u : State} (h : step s = hostTurn u) (hs : u.env.script = .wait :: rest)
    (hd : u.status.done = true) : WaitOver rest 1 s := by
  have hstep := (h.trans (hostTurn_cons hs)).trans (hostStep_wait_done hd)
  exact ⟨1, _, u.status.word, le_rfl, run_one hstep, rfl, rfl, by rw [(Status.getLsbD_word _).2.1, hd]⟩

/-- The engine's step sets DONE, and the host, alone from then on, reads it. -/
theorem waitOver_engine {v : Word} (hp : s.pending = some v) (hm : EngineToMove s) (hs : s.env.script = .wait :: rest) :
    WaitOver rest 2 s := by
  obtain ⟨t, ht⟩ := engineStep_next v s.popSchedule
  have hframe := engineStep_frame ht
  have hscript : t.env.script = .wait :: rest := by rw [hframe]; exact hs
  have hidle : t.pending = none := by rw [hframe]
  exact .of_step ((step_engine hp hm).trans ht) (.of_hostTurn (step_idle hidle) hscript (engineStep_done ht))

/-- By induction on the schedule: a host turn reads DONE or spends one entry and repeats the wait. -/
theorem waitOver_of_pending (s : State) (v : Word) (hp : s.pending = some v) (hs : s.env.script = .wait :: rest) :
    WaitOver rest (s.env.schedule.length + 2) s := by
  induction hlen : s.env.schedule.length generalizing s with
  | zero =>
    exact waitOver_engine hp (.inl (by simp [List.length_eq_zero_iff.mp hlen])) hs
  | succ n ih =>
    obtain ⟨agent, sched, hsched⟩ := List.exists_cons_of_length_eq_add_one hlen
    cases agent with
    | engine => exact (waitOver_engine hp (.inl (by simp [hsched])) hs).mono (by omega)
    | host =>
      have hturn := step_hostScheduled hp hsched hs
      by_cases hd : s.status.done = true
      · exact (WaitOver.of_hostTurn hturn hs hd).mono (by omega)
      · have hstep := (hturn.trans (hostTurn_cons hs)).trans (hostStep_wait_again hd)
        exact .of_step hstep (ih _ hp rfl (by simpa [hsched] using hlen))

/-- Settles O58: the named form `WaitOver` of its conclusion. -/
theorem waitEnds : Obligations.WaitEnds := by
  intro s rest hp hs
  obtain ⟨v, hp⟩ := Option.isSome_iff_exists.mp hp
  exact waitOver_of_pending s v hp hs

end Sys2Proof.Machine
end

section
/-! The classifier and the FourCC dispatch (40_control.md R111, R113), in the bits of the flag word (30_encoding.md R98)
and the bytes of the tag (R99). -/

namespace Sys2Proof.Machine

variable {req : Bool} {flags bpp : Word}

/-- A flag whose bit value is a power of two is one bit of the flag word (R98). -/
theorem flagSet_twoPow (flags : Word) (k : Nat) (hk : k < 32) :
    flagSet flags (BitVec.twoPow 32 k) = flags.getLsbD k := by
  have hne : BitVec.twoPow 32 k ≠ 0 := fun h => by
    have hbit := BitVec.getLsbD_twoPow (w := 32) k k
    simp [h, hk] at hbit
  rw [flagSet, BitVec.and_twoPow]
  cases flags.getLsbD k
  · rfl
  · simpa using hne

theorem flagSet_pfAlpha (flags : Word) : flagSet flags pfAlpha = flags.getLsbD 1 := flagSet_twoPow flags 1 (by decide)
theorem flagSet_pfFourcc (flags : Word) : flagSet flags pfFourcc = flags.getLsbD 2 := flagSet_twoPow flags 2 (by decide)
theorem flagSet_pfRgb (flags : Word) : flagSet flags pfRgb = flags.getLsbD 6 := flagSet_twoPow flags 6 (by decide)
theorem flagSet_pfYuv (flags : Word) : flagSet flags pfYuv = flags.getLsbD 9 := flagSet_twoPow flags 9 (by decide)
theorem flagSet_pfLuminance (flags : Word) : flagSet flags pfLuminance = flags.getLsbD 17 :=
  flagSet_twoPow flags 17 (by decide)

/-- R111's branches in their order, in the bits of the flag word. -/
theorem classify_eq (req : Bool) (flags bpp : Word) : classify req flags bpp =
    if bpp = 32 ∧ (req = false ∨ flags.getLsbD 6 = true) then .rgba8
    else if bpp = 64 ∧ (req = false ∨ flags.getLsbD 6 = true) then .rgba16
    else if bpp = 24 ∧ flags.getLsbD 9 = true then .ycbcr24
    else if bpp = 8 ∧ flags.getLsbD 17 = true then .gray8
    else if bpp = 16 ∧ flags.getLsbD 17 = true then .gray16
    else if bpp = 8 ∧ flags.getLsbD 1 = true then .alpha8
    else if bpp = 16 ∧ flags.getLsbD 1 = true then .alpha16
    else if flags.getLsbD 2 = true then .compressed
    else .none := by
  simp only [classify, flagSet_pfAlpha, flagSet_pfFourcc, flagSet_pfRgb, flagSet_pfYuv, flagSet_pfLuminance,
    Bool.and_eq_true, Bool.or_eq_true, Bool.not_eq_true', beq_iff_eq, and_comm]

/-- Where no branch on the bit count applies, the FOURCC flag decides. -/
theorem classify_of_no_bitCount (hrgb : ¬ ((bpp = 32 ∨ bpp = 64) ∧ (req = false ∨ flags.getLsbD 6 = true)))
    (hyuv : ¬ (bpp = 24 ∧ flags.getLsbD 9 = true))
    (hgray : ¬ ((bpp = 8 ∨ bpp = 16) ∧ (flags.getLsbD 17 = true ∨ flags.getLsbD 1 = true))) :
    classify req flags bpp = if flags.getLsbD 2 then .compressed else .none := by
  rw [classify_eq, if_neg fun h => hrgb ⟨.inl h.1, h.2⟩, if_neg fun h => hrgb ⟨.inr h.1, h.2⟩, if_neg hyuv,
    if_neg fun h => hgray ⟨.inl h.1, .inl h.2⟩, if_neg fun h => hgray ⟨.inr h.1, .inl h.2⟩,
    if_neg fun h => hgray ⟨.inl h.1, .inr h.2⟩, if_neg fun h => hgray ⟨.inr h.1, .inr h.2⟩]

/-- A class without the FOURCC flag comes from a branch on the bit count, which is then a whole number of bytes. -/
theorem exists_bytes_of_classify (hclass : classify req flags bpp ≠ .none) (hf : flags.getLsbD 2 = false) :
    ∃ n ∈ [1, 2, 3, 4, 8], bpp.toNat = 8 * n := by
  by_cases hrgb : (bpp = 32 ∨ bpp = 64) ∧ (req = false ∨ flags.getLsbD 6 = true)
  · obtain ⟨rfl | rfl, -⟩ := hrgb
    · exact ⟨4, by decide, rfl⟩
    · exact ⟨8, by decide, rfl⟩
  by_cases hyuv : bpp = 24 ∧ flags.getLsbD 9 = true
  · obtain ⟨rfl, -⟩ := hyuv
    exact ⟨3, by decide, rfl⟩
  by_cases hgray : (bpp = 8 ∨ bpp = 16) ∧ (flags.getLsbD 17 = true ∨ flags.getLsbD 1 = true)
  · obtain ⟨rfl | rfl, -⟩ := hgray
    · exact ⟨1, by decide, rfl⟩
    · exact ⟨2, by decide, rfl⟩
  · exact absurd (by rw [classify_of_no_bitCount hrgb hyuv hgray, hf, if_neg Bool.false_ne_true]) hclass

/-- Settles O27: each clause selects its branch of `classify_eq`; the bit count excludes the others. -/
theorem classifierPriority : Obligations.ClassifierPriority := by
  intro req flags bpp
  refine ⟨?rgba8, ?rgba16, ?ycbcr24, ?gray8, ?gray16, ?alpha8, ?alpha16, classify_of_no_bitCount⟩
  case alpha8 | alpha16 =>
    rintro ⟨rfl, hlum, halpha⟩
    simp [classify_eq, hlum, halpha, -BitVec.getLsbD_eq_getElem]
  all_goals
    rintro ⟨rfl, h⟩
    simp [classify_eq, h, -BitVec.getLsbD_eq_getElem]

/-- Settles O28: in each branch of the dispatch the tag is known, or known to be none of the five. -/
theorem fourccDispatch : Obligations.FourccDispatch := by
  intro tag
  refine ⟨rfl, ?_⟩
  by_cases h1 : tag = 0x31545844
  · subst h1
    decide
  by_cases h3 : tag = 0x32545844 ∨ tag = 0x33545844
  · obtain rfl | rfl := h3 <;> decide
  by_cases h5 : tag = 0x34545844 ∨ tag = 0x35545844
  · obtain rfl | rfl := h5 <;> decide
  · have hroute : fourccRoute tag false = none := by
      simp only [fourccRoute, Bool.or_eq_true, beq_iff_eq]
      rw [if_neg Bool.false_ne_true, if_neg h1, if_neg h3, if_neg h5]
    rw [hroute]
    exact ⟨iff_of_false nofun h1, iff_of_false nofun h3, iff_of_false nofun h5⟩

end Sys2Proof.Machine
end

section
/-! NOP, PROBE and DECODE (40_control.md R110, R112, R114). -/

namespace Sys2Proof.Machine

variable {s : State} {v : Variant}

/-! ## DECODE's branches -/

theorem checkClass_pass (h : classOf s ≠ .none) : checkClass s = none := if_neg h

theorem checkClass_fail (h : classOf s = .none) :
    checkClass s = some ⟨.unrecognizedFormat, s.inp.pfFlags.toNat, s.inp.rgbBitCount.toNat⟩ := if_pos h

/-- An error end whose diagnostics are register values (60_exceptions.md R206). -/
theorem raise_words (s : State) (e : ErrCode) (a b : Word) : s.raise ⟨e, a.toNat, b.toNat⟩ = erredWith s e a b := by
  rw [raise_eq_erredWith, BitVec.ofNat_toNat, BitVec.ofNat_toNat, BitVec.setWidth_eq, BitVec.setWidth_eq]

theorem exec_decode_noClass (h : classOf s = .none) :
    exec .decode s =
      .next ((decodeStart s).raise ⟨.unrecognizedFormat, s.inp.pfFlags.toNat, s.inp.rgbBitCount.toNat⟩) := by
  rw [exec, execDecode, checkClass_fail h]

theorem exec_decode_fourcc (hclass : classOf s ≠ .none) (hf : s.inp.pfFlags.getLsbD 2 = true) :
    exec .decode s = decodeCompressed (decodeStart s) := by
  rw [exec, execDecode, checkClass_pass hclass, flagSet_pfFourcc, hf]
  rfl

theorem exec_decode_noTag (hclass : classOf s ≠ .none) (hf : s.inp.pfFlags.getLsbD 2 = true)
    (htag : fourccRoute s.inp.fourcc s.inp.ctrl.forceDxt3 = none) :
    exec .decode s = .next ((decodeStart s).raise ⟨.unsupportedFourcc, s.inp.fourcc.toNat, 0⟩) := by
  rw [exec_decode_fourcc hclass hf, decodeCompressed,
    show fourccRoute (decodeStart s).inp.fourcc (decodeStart s).inp.ctrl.forceDxt3 = none from htag]
  rfl

theorem exec_surfaceInstr (v : Variant) (s : State) :
    exec v.surfaceInstr s = endCommand s (surfaceChecks s) (decodeSurface v) := by cases v <;> rfl

/-- DECODE of compressed data is the surface command of the tag's variant, after the writes of `decodeStart` and ROUTE. -/
theorem exec_decode_surface (hclass : classOf s ≠ .none) (hf : s.inp.pfFlags.getLsbD 2 = true)
    (htag : fourccRoute s.inp.fourcc s.inp.ctrl.forceDxt3 = some v) :
    exec .decode s = exec v.surfaceInstr ((decodeStart s).setRoute v.route) := by
  rw [exec_decode_fourcc hclass hf, decodeCompressed,
    show fourccRoute (decodeStart s).inp.fourcc (decodeStart s).inp.ctrl.forceDxt3 = some v from htag,
    exec_surfaceInstr]
  rfl

/-- DECODE of uncompressed data is UNPACK_SURFACE, after the writes of `decodeStart` and ROUTE. -/
theorem exec_decode_unpack (hclass : classOf s ≠ .none) (hf : s.inp.pfFlags.getLsbD 2 = false) :
    exec .decode s = exec .unpackSurface ((decodeStart s).setRoute .uncompressed) := by
  rw [exec, execDecode, checkClass_pass hclass, flagSet_pfFourcc, hf]
  rfl

/-! ## The surface commands complete, and what they draw does not depend on the registers they leave alone -/

theorem surfaceChecks_pass (hlen : s.inp.srcLen.toNat ≤ s.params.srcBytes) (hfit : s.w * s.h ≤ s.params.rasterPixels) :
    firstError (surfaceChecks s) = none := by
  rw [surfaceChecks, checkSrcLen, if_neg (by omega), checkRaster, if_neg (by omega)]
  rfl

theorem exec_surfaceInstr_completes (v : Variant) (h : firstError (surfaceChecks s) = none) :
    exec v.surfaceInstr s =
      .next
        (completedWith s { s.out with blocksDone := (decodeSurface v s).out.blocksDone } (decodeSurface v s).raster) := by
  rw [exec_surfaceInstr, endCommand_pass h, decodeSurface_eq]
  rfl

/-- UNPACK_SURFACE's checks pass for whole-byte pixels whose image fits in RASTER and whose payload is there (R137). -/
theorem unpackChecks_pass {n : Nat} (hbpp : s.inp.rgbBitCount.toNat = 8 * n) (h1 : 1 ≤ n) (h8 : n ≤ 8)
    (hlen : s.inp.srcLen.toNat ≤ s.params.srcBytes) (hfit : s.w * s.h ≤ s.params.rasterPixels)
    (hpay : s.w * n * s.h ≤ s.inp.srcLen.toNat) : firstError (unpackChecks s) = none := by
  rw [unpackChecks, hbpp, checkWidth, if_pos (validBpp_bytes h1 h8), checkSrcLen, if_neg (by omega), checkRaster,
    if_neg (by omega), checkPayload, hbpp, pitch_bytes, if_neg (by omega)]
  rfl

theorem exec_unpackSurface_completes (h : firstError (unpackChecks s) = none) :
    exec .unpackSurface s = .next (completedWith s s.out (unpackSurface s).raster) := by
  rw [exec, execUnpackSurface, endCommand_pass h, unpackSurface_eq]
  rfl

/-- A surface decode reads no `RO` register (30_encoding.md R84). -/
theorem decodeSurface_setOut (v : Variant) (s : State) (o : Results) :
    (decodeSurface v { s with out := o }).raster = (decodeSurface v s).raster ∧
      (decodeSurface v { s with out := o }).out.blocksDone = (decodeSurface v s).out.blocksDone :=
  decodeSurface_congr v ⟨rfl, rfl⟩ rfl ⟨rfl, fun _ _ => rfl⟩

/-- Nor does UNPACK_SURFACE, once its checks have passed. -/
theorem unpackSurface_setOut (h : firstError (unpackChecks s) = none) (o : Results) :
    (unpackSurface { s with out := o }).raster = (unpackSurface s).raster := by
  obtain ⟨n, hbpp, hpay⟩ := payload_of_unpackChecks h
  exact unpackSurface_congr (s := { s with out := o }) ⟨rfl, rfl⟩ rfl rfl ⟨rfl, rfl, rfl, rfl⟩ ⟨rfl, fun _ _ => rfl⟩
    hbpp hpay

/-! ## The obligations -/

/-- Settles O25: NOP has no check to fail and an empty body. -/
theorem nopCompletes : Obligations.NopCompletes := fun _ => endCommand_pass firstError_nil

/-- Settles O26: PROBE writes CLASS and then makes its one check. -/
theorem probeWritesClass : Obligations.ProbeWritesClass := by
  intro s
  refine ⟨fun hclass => ?_, fun hclass => ?_⟩
  · have hpass : firstError [checkClass s] = none := by rw [checkClass_pass hclass, firstError_none, firstError_nil]
    exact endCommand_pass hpass
  · have hfail := congrArg (firstError [·]) (checkClass_fail hclass)
    rw [exec, execProbe, endCommand_fail hfail, raise_words, show classOf s = .none from hclass]
    rfl

/-- Settles O33: the two error branches of DECODE, each after the writes of `decodeStart`. -/
theorem decodeRejectsFormatThenTag : Obligations.DecodeRejectsFormatThenTag := by
  intro s
  refine ⟨fun hclass => ?_, fun hclass hf htag => ?_⟩
  · rw [exec_decode_noClass hclass, raise_words, decodeStart_eq, show classOf s = .none from hclass]
  · rw [exec_decode_noTag hclass hf htag]
    exact congrArg _ (raise_words _ _ _ 0)

/-- Settles O29: `exec_decode_surface`. -/
theorem decodeRunsTheBlockCodec : Obligations.DecodeRunsTheBlockCodec := by
  intro s v hclass hf htag
  obtain ⟨t, ht⟩ := exec_next .decode s
  exact ⟨t, ht, (exec_decode_surface hclass hf htag).symm.trans ht⟩

/-- Settles O31: `exec_decode_unpack`, and the class names the bit count. -/
theorem decodeRunsTheUnpacker : Obligations.DecodeRunsTheUnpacker := by
  intro s hclass hf
  obtain ⟨t, ht⟩ := exec_next .decode s
  refine ⟨?_, t, ht, (exec_decode_unpack hclass hf).symm.trans ht⟩
  obtain ⟨n, hn, hbpp⟩ := exists_bytes_of_classify hclass hf
  rw [hbpp]
  exact List.mem_map_of_mem (f := (8 * ·)) hn

/-- Settles O30: the surface command completes from `s` and from the state DECODE runs it in, with the same image. -/
theorem decodeCompressedCompletes : Obligations.DecodeCompressedCompletes := by
  intro s v hclass hf htag hlen hfit
  have hpass : firstError (surfaceChecks s) = none := surfaceChecks_pass hlen hfit
  refine ⟨_, _, exec_surfaceInstr_completes v hpass, ?_⟩
  obtain ⟨hraster, hblocks⟩ := decodeSurface_setOut v s ((decodeStart s).setRoute v.route).out
  rw [exec_decode_surface hclass hf htag, exec_surfaceInstr_completes v (s := (decodeStart s).setRoute v.route) hpass,
    ← hraster, ← hblocks]
  rfl

/-- Settles O32: UNPACK_SURFACE completes from `s` and from the state DECODE runs it in, with the same image. -/
theorem decodeUncompressedCompletes : Obligations.DecodeUncompressedCompletes := by
  intro s hclass hf hlen hfit hpay
  obtain ⟨n, hn, hbpp⟩ := exists_bytes_of_classify hclass hf
  have hrange : 1 ≤ n ∧ n ≤ 8 := (by decide : ∀ n ∈ [1, 2, 3, 4, 8], 1 ≤ n ∧ n ≤ 8) n hn
  rw [hbpp, Nat.mul_div_cancel_left n (by decide)] at hpay
  have hpass : firstError (unpackChecks s) = none := unpackChecks_pass hbpp hrange.1 hrange.2 hlen hfit hpay
  refine ⟨_, exec_unpackSurface_completes hpass, ?_⟩
  rw [exec_decode_unpack hclass hf, exec_unpackSurface_completes (s := (decodeStart s).setRoute .uncompressed) hpass,
    ← unpackSurface_setOut hpass ((decodeStart s).setRoute .uncompressed).out]
  rfl

end Sys2Proof.Machine
end

section
/-! SUPPORT. A command's checks, one after the other (60_exceptions.md R202, R208): a check that passes leaves the rest of
the list, and the first that fails ends the command. -/

namespace Sys2Proof.Machine

variable {s : State}

@[simp] theorem endCommand_nil (s : State) (body : State → State) : endCommand s [] body = .next (body s).complete := rfl

@[simp] theorem endCommand_none_cons (s : State) (l : List (Option CmdError)) (body : State → State) :
    endCommand s (none :: l) body = endCommand s l body := rfl

@[simp] theorem endCommand_some_cons (s : State) (e : ErrCode) (a b : Nat) (l : List (Option CmdError))
    (body : State → State) :
    endCommand s (some ⟨e, a, b⟩ :: l) body = .next (erredWith s e (BitVec.ofNat 32 a) (BitVec.ofNat 32 b)) := rfl

@[simp] theorem checkWidth_true (w : Nat) : checkWidth w true = none := rfl

@[simp] theorem checkWidth_false (w : Nat) : checkWidth w false = some ⟨.badWidth, w, 0⟩ := rfl

theorem checkSrcLen_pass (h : s.inp.srcLen.toNat ≤ s.params.srcBytes) : checkSrcLen s = none := if_neg (Nat.not_lt.mpr h)

theorem checkSrcLen_fail (h : s.params.srcBytes < s.inp.srcLen.toNat) :
    checkSrcLen s = some ⟨.badLength, s.inp.srcLen.toNat, s.params.srcBytes⟩ := if_pos h

theorem checkRead_pass {off n : Nat} (h : off + n ≤ s.inp.srcLen.toNat) : checkRead s off n = none :=
  if_neg (Nat.not_lt.mpr h)

theorem checkRead_fail {off n : Nat} (h : s.inp.srcLen.toNat < off + n) :
    checkRead s off n = some ⟨.bufferTooShort, off + n, s.inp.srcLen.toNat⟩ := if_pos h

theorem checkPixel_pass {x y : Nat} (hx : x < s.w) (hy : y < s.h) : checkPixel s x y = none := if_neg (by omega)

theorem checkPixel_fail {x y : Nat} (h : s.w ≤ x ∨ s.h ≤ y) : checkPixel s x y = some ⟨.outOfRange, x, y⟩ := if_pos h

theorem checkRaster_pass (h : s.w * s.h ≤ s.params.rasterPixels) : checkRaster s = none := if_neg (Nat.not_lt.mpr h)

theorem checkRaster_fail (h : s.params.rasterPixels < s.w * s.h) : checkRaster s = some ⟨.tooLarge, s.w, s.h⟩ := if_pos h

theorem checkPayload_fail {n : Nat} (hbpp : s.inp.rgbBitCount.toNat = 8 * n) (h : s.inp.srcLen.toNat < s.w * n * s.h) :
    checkPayload s = some ⟨.dataRead, s.w * n * s.h, s.inp.srcLen.toNat⟩ := by
  rw [checkPayload, hbpp, pitch_bytes, if_pos h]

end Sys2Proof.Machine
end

section
/-! The bit-unpacker (41_unpack.md R130 to R138). -/

namespace Sys2Proof.Machine

variable {s : State}

/-! ## Channels and pixels -/

theorem extract_zero_mask (acc : Acc) : extract acc 0 = 0 := by simp [extract]

/-- A completed unpack of `w` bits of SRC, in the terms of the statements (R133, R135, R136). -/
theorem endCommand_unpackTo (s : State) (off : Nat) {w : Nat} (hw : w ≤ 64) :
    ∃ acc : Acc, IsSrcBits s off w acc ∧
      endCommand s [] (unpackTo off w) =
        .next (completedWith s
          { s.out with
            accLo := BitVec.ofNat 32 acc.toNat
            accHi := BitVec.ofNat 32 (acc.toNat / 2 ^ 32)
            resultRgba :=
              wordOf (extract acc s.inp.rMask).toNat (extract acc s.inp.gMask).toNat (extract acc s.inp.bMask).toNat
                (extract acc s.inp.aMask).toNat }
          s.raster) := by
  refine ⟨readBits s off w, readBits_isSrcBits s off hw, ?_⟩
  rw [endCommand_nil, unpackTo, pack_eq_wordOf, ← Nat.shiftRight_eq_div_pow]
  rfl

/-- The word of pixel `(x, y)` for whole-byte pixels (R102, R133). -/
theorem surfacePixel_bytes {n : Nat} (hbpp : s.inp.rgbBitCount.toNat = 8 * n) (x y : Nat) :
    surfacePixel s x y = pack (unpackColor s (readBits s (y * (s.w * n) + x * n) (8 * n))) := by
  rw [surfacePixel, hbpp, pixelOffset_bytes]

/-- What UNPACK_SURFACE draws in pixel `(x, y)` of the image (R137). -/
theorem rasterWord_unpackSurface {x y : Nat} (hx : x < s.w) (hy : y < s.h) :
    (unpackSurface s).rasterWord (y * s.w + x) = surfacePixel s x y := by
  have hlt : y * s.w + x < s.w * s.h := pixel_lt hx hy
  obtain ⟨hcol, -, hnum⟩ := pixel_col_row hlt
  obtain ⟨hx', hy'⟩ := pixel_unique hcol hx hnum
  rw [unpackSurface, rasterWord_foldl_pixels (fun p => surfacePixel s (p % s.w) (p / s.w)) _ _
    (fun _ => List.mem_range.mp), if_pos (List.mem_range.mpr hlt), hx', hy']

/-- UNPACK_SURFACE draws nothing beyond the image (R138). -/
theorem rasterByte_unpackSurface_beyond {a : Nat} (h : 4 * (s.w * s.h) ≤ a) :
    (unpackSurface s).rasterByte a = s.rasterByte a := by
  rw [State.rasterByte, State.rasterByte, (RasterStep.unpackSurface s).beyond a h, unpackSurface_env]

theorem completedWith_unpackSurface (s : State) :
    completedWith s s.out (unpackSurface s).raster = (unpackSurface s).complete := by
  rw [unpackSurface_eq]
  rfl

/-! ## The commands after their width check -/

theorem exec_unpackRaw_badWidth (h : ¬ (1 ≤ s.inp.arg1.toNat ∧ s.inp.arg1.toNat ≤ 64)) :
    exec .unpackRaw s = .next (erredWith s .badWidth s.inp.arg1 0) := by
  have hwidth : (decide (1 ≤ s.inp.arg1.toNat) && decide (s.inp.arg1.toNat ≤ 64)) = false := by simpa using h
  simp [exec, execUnpackRaw, hwidth]

theorem exec_unpackRaw_of_width (h1 : 1 ≤ s.inp.arg1.toNat) (h64 : s.inp.arg1.toNat ≤ 64) :
    exec .unpackRaw s =
      endCommand s [checkSrcLen s, checkRead s s.inp.arg0.toNat ((s.inp.arg1.toNat + 7) / 8)]
        (unpackTo s.inp.arg0.toNat s.inp.arg1.toNat) := by
  rw [exec, execUnpackRaw, decide_eq_true h1, decide_eq_true h64]
  rfl

theorem exec_unpackPixel_badWidth (h : ∀ n, 1 ≤ n → n ≤ 8 → s.inp.rgbBitCount.toNat ≠ 8 * n) :
    exec .unpackPixel s = .next (erredWith s .badWidth s.inp.rgbBitCount 0) := by
  simp [exec, execUnpackPixel, validBpp_false h]

theorem exec_unpackPixel_of_bytes {n : Nat} (hbpp : s.inp.rgbBitCount.toNat = 8 * n) (h1 : 1 ≤ n) (h8 : n ≤ 8) :
    exec .unpackPixel s =
      endCommand s
        [checkPixel s s.inp.arg0.toNat s.inp.arg1.toNat, checkSrcLen s,
         checkRead s (s.inp.arg1.toNat * (s.inp.width.toNat * n) + s.inp.arg0.toNat * n) n]
        (unpackTo (s.inp.arg1.toNat * (s.inp.width.toNat * n) + s.inp.arg0.toNat * n) (8 * n)) := by
  have hbytes : ceilDiv (8 * n) 8 = n := by unfold ceilDiv; omega
  rw [exec, execUnpackPixel, argPixelOffset, hbpp, validBpp_bytes h1 h8, checkWidth_true, endCommand_none_cons,
    pixelOffset_bytes, hbytes, State.w]

theorem exec_unpackSurface_badWidth (h : ∀ n, 1 ≤ n → n ≤ 8 → s.inp.rgbBitCount.toNat ≠ 8 * n) :
    exec .unpackSurface s = .next (erredWith s .badWidth s.inp.rgbBitCount 0) := by
  simp [exec, execUnpackSurface, unpackChecks, validBpp_false h]

theorem exec_unpackSurface_of_bytes {n : Nat} (hbpp : s.inp.rgbBitCount.toNat = 8 * n) (h1 : 1 ≤ n) (h8 : n ≤ 8) :
    exec .unpackSurface s = endCommand s [checkSrcLen s, checkRaster s, checkPayload s] unpackSurface := by
  rw [exec, execUnpackSurface, unpackChecks, hbpp, validBpp_bytes h1 h8, checkWidth_true, endCommand_none_cons]

/-! ## The obligations -/

/-- Settles O34: `ctz32 mask` is the number of trailing zeros. -/
theorem extractTakesTheMaskedBits : Obligations.ExtractTakesTheMaskedBits := by
  intro acc mask
  refine ⟨extract_zero_mask acc, fun hmask => ?_⟩
  obtain ⟨hlt, hbit, hzeros⟩ := ctz32_spec hmask
  exact ⟨ctz32 mask, hlt, hbit, hzeros, fun k hk => getLsbD_extract acc mask hk hlt⟩

/-- Settles O35: the three checks pass, and `unpackTo` does the rest. -/
theorem unpackRawResult : Obligations.UnpackRawResult := by
  intro s h1 h64 hlen hread
  rw [exec_unpackRaw_of_width h1 h64, checkSrcLen_pass hlen, checkRead_pass hread]
  exact endCommand_unpackTo s _ h64

/-- Settles O36: one case for each check that can fail. -/
theorem unpackRawErrors : Obligations.UnpackRawErrors := by
  intro s
  refine ⟨exec_unpackRaw_badWidth, fun h1 h64 => ?_⟩
  rw [exec_unpackRaw_of_width h1 h64]
  refine ⟨fun hlen => ?badLength, fun hlen hread => ?bufferTooShort⟩
  case badLength => simp [checkSrcLen_fail hlen]
  case bufferTooShort => simp [checkSrcLen_pass hlen, checkRead_fail hread]

/-- Settles O37: the four checks pass, and `unpackTo` does the rest. -/
theorem unpackPixelResult : Obligations.UnpackPixelResult := by
  intro s n hbpp h1 h8 hx hy hlen hread
  rw [exec_unpackPixel_of_bytes hbpp h1 h8, checkPixel_pass hx hy, checkSrcLen_pass hlen, checkRead_pass hread]
  exact endCommand_unpackTo s _ (Nat.mul_le_mul_left 8 h8)

/-- Settles O38: one case for each check that can fail. -/
theorem unpackPixelErrors : Obligations.UnpackPixelErrors := by
  intro s
  refine ⟨exec_unpackPixel_badWidth, fun n h1 h8 hbpp => ?_⟩
  rw [exec_unpackPixel_of_bytes hbpp h1 h8]
  refine ⟨fun hout => ?outOfRange, fun hx hy => ⟨fun hlen => ?badLength, fun hlen hread => ?bufferTooShort⟩⟩
  case outOfRange => simp [checkPixel_fail hout]
  case badLength => simp [checkPixel_pass hx hy, checkSrcLen_fail hlen]
  case bufferTooShort => simp [checkPixel_pass hx hy, checkSrcLen_pass hlen, checkRead_fail hread]

/-- Settles O39: the raster is `unpackSurface`'s, read pixel by pixel and beyond the image. -/
theorem unpackSurfacePixels : Obligations.UnpackSurfacePixels := by
  intro s n hbpp h1 h8 hlen hfit hpay
  refine ⟨(unpackSurface s).raster, exec_unpackSurface_completes (unpackChecks_pass hbpp h1 h8 hlen hfit hpay), ?_⟩
  rw [completedWith_unpackSurface]
  refine ⟨fun x y hx hy => ⟨_, readBits_isSrcBits s _ (Nat.mul_le_mul_left 8 h8), ?_⟩,
    fun a ha => rasterByte_unpackSurface_beyond ha⟩
  calc (unpackSurface s).rasterWord (y * s.w + x)
    _ = surfacePixel s x y := rasterWord_unpackSurface hx hy
    _ = pack (unpackColor s (readBits s (y * (s.w * n) + x * n) (8 * n))) := surfacePixel_bytes hbpp x y
    _ = _ := pack_eq_wordOf _

/-- Settles O40: one case for each check that can fail. -/
theorem unpackSurfaceErrors : Obligations.UnpackSurfaceErrors := by
  intro s
  refine ⟨exec_unpackSurface_badWidth, fun n h1 h8 hbpp => ?_⟩
  rw [exec_unpackSurface_of_bytes hbpp h1 h8]
  refine ⟨fun hlen => ?badLength, fun hlen => ⟨fun hfit => ?tooLarge, fun hfit hpay => ?dataRead⟩⟩
  case badLength => simp [checkSrcLen_fail hlen]
  case tooLarge => simp [checkSrcLen_pass hlen, checkRaster_fail hfit, State.w, State.h]
  case dataRead =>
    simp [checkSrcLen_pass hlen, checkRaster_pass hfit, checkPayload_fail hbpp hpay, State.w, State.h]

end Sys2Proof.Machine
end

section
/-! The palette commands (42_interp.md R159, R160) on the endpoints and anchors of `ARG0`. -/

namespace Sys2Proof.Machine

/-! ## The fields of `ARG0` as numbers (30_encoding.md R85, R86) -/

theorem toNat_colorArg0 (s : State) : (colorArg0 s).toNat = s.inp.arg0.toNat % 2 ^ 16 := by
  rw [colorArg0, BitVec.extractLsb'_toNat, Nat.shiftRight_zero]

/-- The upper half of a 32-bit word needs no reduction. -/
theorem toNat_colorArg1 (s : State) : (colorArg1 s).toNat = s.inp.arg0.toNat / 2 ^ 16 := by
  have := s.inp.arg0.isLt
  rw [colorArg1, BitVec.extractLsb'_toNat, Nat.shiftRight_eq_div_pow, Nat.mod_eq_of_lt (by omega)]

theorem toNat_alphaArg0 (s : State) : (alphaArg0 s).toNat = s.inp.arg0.toNat % 256 := by
  rw [alphaArg0, BitVec.extractLsb'_toNat, Nat.shiftRight_zero]

theorem toNat_alphaArg1 (s : State) : (alphaArg1 s).toNat = s.inp.arg0.toNat / 256 % 256 := by
  rw [alphaArg1, BitVec.extractLsb'_toNat, Nat.shiftRight_eq_div_pow]

/-! ## The obligations -/

/-- Settles O41: the command has no check to fail, and `palWords_colorPalette` gives each word for the two halves of
`ARG0`. -/
theorem colorPaletteResult : Obligations.ColorPaletteResult := by
  intro s
  refine ⟨palWords (colorPalette (colorArg0 s) (colorArg1 s)), ?completes, fun k => ?entry⟩
  case completes =>
    rw [exec, execColorPalette, endCommand_nil]
    rfl
  case entry => rw [palWords_colorPalette, toNat_colorArg0, toNat_colorArg1]

/-- Settles O42: the command has no check to fail, and `apalWords_alphaPalette` gives each byte for the two low bytes of
`ARG0`. -/
theorem alphaPaletteResult : Obligations.AlphaPaletteResult := by
  intro s
  refine ⟨apalLoWord (alphaPalette (alphaArg0 s) (alphaArg1 s)), apalHiWord (alphaPalette (alphaArg0 s) (alphaArg1 s)),
    ?completes, fun k hk => ?byte⟩
  case completes =>
    rw [exec, execAlphaPalette, endCommand_nil]
    rfl
  case byte =>
    rw [← toNat_alphaArg0, ← toNat_alphaArg1]
    exact apalWords_alphaPalette _ _ k hk

end Sys2Proof.Machine
end

section
/-! The block decompressor's commands: their errors (43_dxt.md R175 to R177, R179) and the surface decode (R178 to R186). -/

namespace Sys2Proof.Machine

variable {s : State}

/-! ## Errors -/

/-- The three single-block commands make the same checks and differ in what they store. -/
theorem exec_blockInstr (v : Variant) (s : State) :
    ∃ body, exec v.blockInstr s = endCommand s [checkSrcLen s, checkRead s s.inp.arg0.toNat v.blockSize] body := by
  cases v with
  | dxt1 => exact ⟨_, execBlockDxt1.eq_def s⟩
  | dxt3 => exact ⟨_, execBlockDxt3.eq_def s⟩
  | dxt5 => exact ⟨_, execBlockDxt5.eq_def s⟩

/-- Settles O46: one case for each check that can fail. -/
theorem blockErrors : Obligations.BlockErrors := by
  intro s v
  obtain ⟨body, hexec⟩ := exec_blockInstr v s
  rw [hexec]
  refine ⟨fun hlen => ?badLength, fun hlen hread => ?bufferTooShort⟩
  case badLength => simp [checkSrcLen_fail hlen]
  case bufferTooShort => simp [checkSrcLen_pass hlen, checkRead_fail hread]

/-- Settles O48: one case for each check that can fail. -/
theorem surfaceDecodeErrors : Obligations.SurfaceDecodeErrors := by
  intro s v
  rw [exec_surfaceInstr, surfaceChecks]
  refine ⟨fun hlen => ?badLength, fun hlen hfit => ?tooLarge⟩
  case badLength => simp [checkSrcLen_fail hlen]
  case tooLarge => simp [checkSrcLen_pass hlen, checkRaster_fail hfit, State.w, State.h]

/-! ## What a surface decode leaves in RASTER and in BLOCKS_DONE -/

/-- A texel's word depends on SRC alone. -/
theorem texelWord_congr {t : State} (h : s.srcByte = t.srcByte) (v : Variant) (off i : Nat) :
    texelWord v s off i = texelWord v t off i := by
  cases v <;> simp only [texelWord, texelColor, texelAlpha3, texelAlpha5, srcNat16, srcNat, srcBit, h]

/-- The block of a pixel of the image is one of the grid's (R97, R178). -/
theorem blockNumber_lt {x y : Nat} (hx : x < s.w) (hy : y < s.h) :
    y / 4 * gridWidth s + x / 4 < gridWidth s * gridHeight s := by
  apply pixel_lt
  · rw [gridWidth, ceilDiv]
    omega
  · rw [gridHeight, ceilDiv]
    omega

/-- Every pixel of the image is its block's texel if the block lies whole below `SRC_LEN`, and still clear otherwise
(R180, R186). -/
theorem rasterWord_decodeSurface (v : Variant) {x y : Nat} (hx : x < s.w) (hy : y < s.h) :
    (decodeSurface v s).rasterWord (y * s.w + x) =
      if (y / 4 * gridWidth s + x / 4 + 1) * v.blockSize ≤ s.inp.srcLen.toNat then
        texelWord v s ((y / 4 * gridWidth s + x / 4) * v.blockSize) (4 * (y % 4) + x % 4)
      else 0 := by
  have hclear : (s.rasterClear.setBlocksDone 0).rasterWord (y * s.w + x) = 0 :=
    (rasterWord_rasterClear s _).trans (if_pos (pixel_lt hx hy))
  have hgrid : gridWidth (s.rasterClear.setBlocksDone 0) = gridWidth s := rfl
  have hsrc : (s.rasterClear.setBlocksDone 0).srcByte = s.srcByte := rfl
  have hloop := rasterWord_decodeBlocks v (gridWidth s * gridHeight s) 0 (s.rasterClear.setBlocksDone 0) hx hy
  rw [State.setBlocksDone_w, State.rasterClear_w, hgrid, hclear, texelWord_congr hsrc] at hloop
  simpa [decodeSurface, blockNumber_lt hx hy] using hloop

/-- RASTER beyond the image is as before (R186). -/
theorem rasterByte_decodeSurface_beyond (v : Variant) {a : Nat} (h : 4 * (s.w * s.h) ≤ a) :
    (decodeSurface v s).rasterByte a = s.rasterByte a := by
  rw [State.rasterByte, State.rasterByte, (RasterStep.decodeSurface v s).beyond a h, decodeSurface_env]

/-- `BLOCKS_DONE` counts the blocks of the grid that lie whole below `SRC_LEN`, the form R179 derives. -/
theorem blocksDone_decodeSurface (v : Variant) (s : State) :
    (decodeSurface v s).out.blocksDone =
      BitVec.ofNat 32 (min (gridWidth s * gridHeight s) (s.inp.srcLen.toNat / v.blockSize)) := by
  rw [decodeSurface, blocksDone_decodeBlocks v _ 0 _ rfl, Nat.zero_add, Nat.sub_zero]
  rfl

/-- Settles O47: the checks pass, and the raster is `decodeSurface`'s, read pixel by pixel and beyond the image. -/
theorem surfaceDecodePixels : Obligations.SurfaceDecodePixels := by
  intro s v hlen hfit
  have hraster : { s with raster := (decodeSurface v s).raster }.rasterWord = (decodeSurface v s).rasterWord :=
    rasterWord_congr rfl (congrArg Env.epoch (decodeSurface_env s v).symm)
  have hbyte : { s with raster := (decodeSurface v s).raster }.rasterByte = (decodeSurface v s).rasterByte :=
    rasterByte_congr rfl (congrArg Env.epoch (decodeSurface_env s v).symm)
  refine ⟨(decodeSurface v s).raster, ?completes, fun x y hx hy => ?pixel, fun a ha => ?beyond⟩
  case completes =>
    rw [exec_surfaceInstr_completes v (surfaceChecks_pass hlen hfit), blocksDone_decodeSurface]
    rfl
  case pixel => exact (congrFun hraster _).trans (rasterWord_decodeSurface v hx hy)
  case beyond => exact (congrFun hbyte a).trans (rasterByte_decodeSurface_beyond v ha)

end Sys2Proof.Machine
end

section
/-! How a command starts and ends (60_exceptions.md R200 to R207). -/

namespace Sys2Proof.Machine

/-- An illegal word's engine step (R203). -/
theorem engineStep_illegal {v : Word} (h : decode v = none) (s : State) :
    engineStep v s = .next (erredWith s .illegalOp v 0) := by
  simp only [engineStep, h]
  exact congrArg _ (raise_words s .illegalOp v 0)

/-- Settles O6: the start is that of any word, and the step is the engine's, which raises `ILLEGAL_OP`. -/
theorem illegalWordRaisesIllegalOp : Obligations.IllegalWordRaisesIllegalOp := fun s v hv =>
  ⟨fun hidle => hostStep_wr_cmd hidle v,
    fun hp hm => (step_engine hp hm).trans (engineStep_illegal hv s.popSchedule)⟩

/-- Settles O7: the state is `startCommand`'s, written out, and IRQ is low because DONE is clear in it. -/
theorem cmdWriteStartsACommand : Obligations.CmdWriteStartsACommand := fun s v hidle =>
  ⟨s.startCommand v, hostStep_wr_cmd hidle v, rfl, Bool.and_false _⟩

/-- Settles O8: the two ends of `exec_ends`; an error end carries the code of a check that failed. -/
theorem everyCommandEndsIdle : Obligations.EveryCommandEndsIdle := by
  intro i s
  obtain ⟨t, h⟩ := exec_next i s
  refine ⟨t, h, ?_⟩
  cases exec_ends h with
  | error o e _ _ hcode ht =>
    subst ht
    exact ⟨rfl, rfl, rfl, rfl, fun _ _ _ _ => .inr ⟨rfl, hcode⟩⟩
  | complete o m hw _ ht =>
    subst ht
    obtain ⟨hdiag0, hdiag1⟩ := hw.diag
    exact ⟨rfl, rfl, rfl, rfl, fun herr hcode h0 h1 => .inl ⟨herr, hcode, hdiag0.trans h0, hdiag1.trans h1⟩⟩

/-- Settles O51: a normal end leaves ERR as it was, so the end is an error's, before which a command has written what
`BeforeError` lists. -/
theorem errorEndLeavesDataUnchanged : Obligations.ErrorEndLeavesDataUnchanged := by
  intro i s t h hclear herr
  cases exec_ends h with
  | error o e hw hb _ ht =>
    subst ht
    obtain ⟨hdiag0, hdiag1⟩ := hw.diag
    have hout : { o with diag0 := s.out.diag0, diag1 := s.out.diag1 } = o := by rw [← hdiag0, ← hdiag1]
    exact ⟨rfl, hout.trans hb⟩
  | complete o m _ _ ht =>
    subst ht
    exact absurd (hclear.symm.trans herr) Bool.false_ne_true

end Sys2Proof.Machine
end

section
/-! A program without an unanswered access runs for ever (60_exceptions.md R200, 20_memory.md R64, R67): such a program
is answered at every step and what is left of it is such a program. -/

namespace Sys2Proof.Machine

variable {s t : State}

theorem hostTurn_next (h : AdmittedScript s) : ∃ t, hostTurn s = .next t := by
  cases hs : s.env.script with
  | nil => exact ⟨s, hostTurn_nil hs⟩
  | cons op rest =>
    rw [hostTurn_cons hs]
    exact hostStep_admitted (h op (hs ▸ List.mem_cons_self))

/-- Only the host can be stopped, and an admitted operation of it is answered. -/
theorem AdmittedScript.step_next (h : AdmittedScript s) : ∃ t, step s = .next t := by
  cases hp : s.pending with
  | none => exact step_idle hp ▸ hostTurn_next h
  | some v =>
    cases hagent : nextAgent s with
    | host =>
      obtain ⟨op, rest, sched, hs, hsched⟩ := nextAgent_host hagent
      exact step_hostScheduled hp hsched hs ▸ hostTurn_next (s := s.popSchedule) h
    | engine => exact step_engine hp (nextAgent_engine hagent) ▸ engineStep_next v _

/-- A host step leaves a tail of the script, before which a `wait`, always admitted, may stand again. -/
theorem AdmittedScript.hostStep {op : HostOp} (h : AdmittedScript s) (ht : hostStep op s = .next t) :
    AdmittedScript t := by
  unfold AdmittedScript
  rw [hostStep_params ht]
  rcases hostStep_script ht with hs | ⟨-, hs⟩
  · rw [hs]
    exact h
  · rw [hs]
    exact List.forall_mem_cons.mpr ⟨rfl, h⟩

theorem AdmittedScript.step (h : AdmittedScript s) (ht : step s = .next t) : AdmittedScript t := by
  cases step_effect ht with
  | idle _ _ ht => exact ht ▸ h
  | host op rest sched hs _ ht =>
    have hrest : ∀ o ∈ rest, o.admitted s.params = true := fun o ho => h o (hs ▸ List.mem_cons_of_mem op ho)
    exact AdmittedScript.hostStep (s := { s with env := { s.env with script := rest, schedule := sched } }) hrest ht
  | engine v _ _ ht =>
    rw [engineStep_frame ht]
    exact h

/-- Settles O56: by induction on the number of steps, each of which is answered and leaves an admitted script. -/
theorem admittedProgramNeverStops : Obligations.AdmittedProgramNeverStops := by
  intro s h k
  induction k generalizing s with
  | zero => exact ⟨s, rfl⟩
  | succ k ih =>
    obtain ⟨t, ht⟩ := h.step_next
    rw [run_succ ht]
    exact ih t (h.step ht)

end Sys2Proof.Machine
end

section
/-! Reset (70_reset_and_hazards.md R230 to R232): at power-on, and by the reset input at any time. -/

namespace Sys2Proof.Machine

/-- After the reset input a register reads as after power-on (R230), but for the two capacities, which show the block's
own parameters. -/
theorem readOffset_applyReset (s : State) {off : Nat} (h78 : off ≠ 0x078) (h7C : off ≠ 0x07C) :
    s.applyReset.readOffset off = State.reset.readOffset off := by
  cases hr : Reg.ofOffset off with
  | none => simp only [State.readOffset, hr]
  | some r =>
    obtain rfl := Reg.offset_of_ofOffset hr
    rw [State.readOffset_idle rfl, State.readOffset_idle rfl]
    cases r with
    | capSrcBytes => exact absurd rfl h78
    | capRasterPixels => exact absurd rfl h7C
    | _ => rfl

/-- Settles O22: the offsets beside the capacities read what they read after power-on (`resetStateRegisters`), and those
above the registers are reserved. -/
theorem resetInputResetsTheBlock : Obligations.ResetInputResetsTheBlock := by
  intro s
  obtain ⟨hid, hzero, -, -⟩ := resetStateRegisters
  refine ⟨s.applyReset, rfl, (readOffset_applyReset s (by decide) (by decide)).trans hid,
    State.readOffset_of_ne_ro _ (r := .capSrcBytes) (by decide),
    State.readOffset_of_ne_ro _ (r := .capRasterPixels) (by decide), fun off h0 h78 h7C => ?_, rfl, rfl⟩
  by_cases hoff : off < 0x1000
  · exact (readOffset_applyReset s h78 h7C).trans (hzero off hoff h0 h78 h7C)
  · exact State.readOffset_reserved _ (by omega)

/-- No byte of SRC is known after the reset input (R232). -/
theorem srcByte_applyReset (s : State) (i : Nat) :
    s.applyReset.srcByte i = Config.srcDrawn (s.env.epoch + 1) i := by
  simp [State.srcByte]

/-- No byte of RASTER is known after the reset input (R232). -/
theorem rasterByte_applyReset (s : State) (i : Nat) :
    s.applyReset.rasterByte i = Config.rasterDrawn (s.env.epoch + 1) i := by
  simp [State.rasterByte]

/-- Settles O23: both memories are emptied, so every byte is a drawn one. -/
theorem resetLeavesMemoriesUnspecified : Obligations.ResetLeavesMemoriesUnspecified := fun s =>
  ⟨s.applyReset, rfl, srcByte_applyReset s, rasterByte_applyReset s, rfl, rfl⟩

/-- Settles O53: nothing is listed in a memory, no command runs and ERR is clear. -/
theorem resetMeetsTheInvariant : Obligations.ResetMeetsTheInvariant where
  params := by decide
  srcForm := List.Pairwise.nil
  rasterForm := List.Pairwise.nil
  srcInside := List.forall_mem_nil _
  rasterInside := List.forall_mem_nil _
  busyPending := rfl
  running := fun hbusy => by cases hbusy
  errCode := fun herr => by cases herr

end Sys2Proof.Machine
end

section
/-! The engine's step (70_reset_and_hazards.md R234): what it runs, and that it comes. -/

namespace Sys2Proof.Machine

/-- A legal word's engine step is its command's body (R234). -/
theorem engineStep_legal {v : Word} {i : Instr} (h : decode v = some i) (s : State) : engineStep v s = exec i s := by
  simp only [engineStep, h]

/-- A placed command runs at the next step, in the state its start leaves: the schedule entry that placing it adds is
the one the step uses up. -/
theorem step_placeCommand (v : Word) (s : State) : step (s.placeCommand v) = engineStep v (s.startCommand v) :=
  step_engine rfl (.inl (by simp))

/-- Settles O4: the engine's step of a legal word, pending or placed. -/
theorem stepRunsTheDecodedCommand : Obligations.StepRunsTheDecodedCommand := by
  refine ⟨fun s v i hp hm hv => (step_engine hp hm).trans (engineStep_legal hv s.popSchedule), fun s w i hw hlt => ?_⟩
  rw [State.withFetchWord, Nat.mod_eq_of_lt hlt, step_placeCommand, engineStep_legal hw]

/-- With an admitted program the block is idle after at most one step more than the schedule has entries: the engine's
step ends the command, and each host step before it uses up an entry. -/
theorem AdmittedScript.idle_within_schedule {s : State} (h : AdmittedScript s) :
    ∃ k t, k ≤ s.env.schedule.length + 1 ∧ run k s = .next t ∧ t.pending = none := by
  cases hp : s.pending with
  | none => exact ⟨0, s, Nat.zero_le _, rfl, hp⟩
  | some v =>
    obtain ⟨t, ht⟩ := h.step_next
    cases step_effect ht with
    | idle hnone _ _ => cases hp.symm.trans hnone
    | engine w _ _ hengine => exact ⟨1, t, by omega, run_one ht, by rw [engineStep_frame hengine]⟩
    | host op rest sched _ hmove hhost =>
      obtain ⟨hnone, -⟩ | ⟨-, hsched⟩ := hmove
      · cases hp.symm.trans hnone
      · have hspent : s.env.schedule.length = t.env.schedule.length + 1 := by
          rw [hsched, hostStep_schedule hhost, List.length_cons]
        obtain ⟨k, u, hk, hrun, hidle⟩ := (h.step ht).idle_within_schedule
        exact ⟨k + 1, u, by omega, (run_succ ht k).trans hrun, hidle⟩
termination_by s.env.schedule.length

/-- Settles O57: `AdmittedScript.idle_within_schedule`, which needs no command pending. -/
theorem busyWindowIsFinite : Obligations.BusyWindowIsFinite := fun _ h _ => h.idle_within_schedule

end Sys2Proof.Machine
end
